-- ==== Sys2Proof/Word.lean ====
section
/-! DEFINITION. The data widths of the engine (rules R8, R9, R82). A byte is an unsigned number 0..255;
`a +8 b` of the spec is the addition of `BitVec 8`, which discards the carry out of bit 7 (R9, R69). -/

namespace Sys2Proof

/-- A byte: an entry of `P`, the registers `S` and `N`, a data beat, a length (R8). -/
abbrev Byte := BitVec 8

/-- A command word: 32 bits, one length (R82). -/
abbrev CommandWord := BitVec 32

/-- An address of the material space: bit 6 is the bank, bits 5:0 the byte index (R66). -/
abbrev MatAddr := BitVec 7

end Sys2Proof
end

