-- ==== Sys2Proof/Syntax.lean ====
section
/-! DEFINITION. The command set: four commands and one data beat (R2, R86), one constructor per row of
spec/opcode_table.json. -/

namespace Sys2Proof

/-- One accepted command word, or one data beat. -/
inductive Instr where
  /-- `INIT klen, ivlen`: standard initialization (R116). -/
  | init (klen ivlen : Byte)
  /-- `INIT3 klen, ivlen`: strengthened ("KSA3") initialization (R117). -/
  | init3 (klen ivlen : Byte)
  /-- `XFORM`: open a transform call (R140). -/
  | xform
  /-- `WIPE`: overwrite the cipher state with zero (R160). -/
  | wipe
  /-- `DATA d`: one data-in beat, one keystream step (R142). -/
  | data (d : Byte)
  deriving DecidableEq, Repr

end Sys2Proof
end

