-- ==== Sys2Proof/WellFormed.lean ====
section
/-! DEFINITION. Which instructions, and which field values of a command word, are well formed (R82, R83, R85, R87). -/

namespace Sys2Proof

/-- The four fields of a command word (R82). -/
structure CommandFields where
  op : Byte
  rsv : Byte
  b : Byte
  a : Byte
  deriving DecidableEq, Repr

/-- The opcode is one of the map: 0x01 to 0x04 (R86; R87 item 1). -/
def CommandFields.opKnown (f : CommandFields) : Bool :=
  f.op == 0x01#8 || f.op == 0x02#8 || f.op == 0x03#8 || f.op == 0x04#8

/-- `RSV` "must be 0x00" (R82; R87 items 2 and 3). -/
def CommandFields.rsvZero (f : CommandFields) : Bool := f.rsv == 0x00#8

/-- Format `Z` has no operands: `A` and `B` must be 0x00; format `L2` takes every `A` and `B` (R83, R85; R87 item 3). -/
def CommandFields.operandsFit (f : CommandFields) : Bool :=
  f.op == 0x01#8 || f.op == 0x02#8 || (f.a == 0x00#8 && f.b == 0x00#8)

/-- The word of these fields is a command of R86 and not one of the reserved words of R87. -/
def CommandFields.wellFormed (f : CommandFields) : Bool :=
  f.opKnown && f.rsvZero && f.operandsFit

/-- Every value of an operand field is a legal encoding: "All 256 values of `A` and of `B` are legal encodings" (R85),
"every value 0x00..0xFF legal" for a data beat (R84). The widths of `Instr` already exclude what cannot be expressed (U9). -/
def Instr.wellFormed : Instr → Bool
  | .init _ _ => true
  | .init3 _ _ => true
  | .xform => true
  | .wipe => true
  | .data _ => true

end Sys2Proof
end

