-- ==== Sys2Proof/Decode.lean ====
section
/-! DEFINITION. Decoding and encoding (R82 to R87). A command word is decoded the same way in every state (R87);
a data beat is the byte itself (R84). -/

namespace Sys2Proof

/-- What crosses the command channel or the data-in channel in one beat (R84). -/
inductive Beat where
  | command (w : CommandWord)
  | data (d : Byte)
  deriving DecidableEq, Repr

/-- Why a word is reserved: the three classes of R87. -/
inductive Reserved where
  /-- R87 item 1: `OP = 0x00` or `OP = 0x05..0xFF`. -/
  | opcode
  /-- R87 item 2: `OP = 0x01` or `0x02` with `RSV != 0x00`. -/
  | rsvField
  /-- R87 item 3: `OP = 0x03` or `0x04` with any of bits 23:0 set. -/
  | formatZ
  deriving DecidableEq, Repr

/-- The fields of a command word (R82). -/
def fieldsOf (w : CommandWord) : CommandFields :=
  { op := w.extractLsb' 24 8, rsv := w.extractLsb' 16 8, b := w.extractLsb' 8 8, a := w.extractLsb' 0 8 }

/-- The class of R87 that a word with opcode `op`, matching no row, belongs to. -/
def reservedClass (op : Byte) : Reserved :=
  if op = 0x01#8 ∨ op = 0x02#8 then .rsvField
  else if op = 0x03#8 ∨ op = 0x04#8 then .formatZ
  else .opcode

/-- The command decoder: the mask and match columns of R86, then R87. -/
def decodeCommand (w : CommandWord) : Except Reserved Instr :=
  if w &&& 0xFFFF0000#32 = 0x01000000#32 then .ok (.init (fieldsOf w).a (fieldsOf w).b)
  else if w &&& 0xFFFF0000#32 = 0x02000000#32 then .ok (.init3 (fieldsOf w).a (fieldsOf w).b)
  else if w &&& 0xFFFFFFFF#32 = 0x03000000#32 then .ok .xform
  else if w &&& 0xFFFFFFFF#32 = 0x04000000#32 then .ok .wipe
  else .error (reservedClass (fieldsOf w).op)

/-- The decoder of a beat, total; a data beat is always `DATA` (R84, mask 0x00 of R86). -/
def decode : Beat → Except Reserved Instr
  | .command w => decodeCommand w
  | .data d => .ok (.data d)

/-- A command word from its fields, `OP` in bits 31:24 down to `A` in bits 7:0 (R82; `0x0100_0000 | ivlen << 8 | klen`, R89). -/
def wordOf (f : CommandFields) : CommandWord :=
  f.op.zeroExtend 32 <<< 24 ||| f.rsv.zeroExtend 32 <<< 16 ||| f.b.zeroExtend 32 <<< 8 ||| f.a.zeroExtend 32

/-- The beat of an instruction (R83, R86). -/
def encode : Instr → Beat
  | .init klen ivlen => .command (wordOf { op := 0x01#8, rsv := 0x00#8, b := ivlen, a := klen })
  | .init3 klen ivlen => .command (wordOf { op := 0x02#8, rsv := 0x00#8, b := ivlen, a := klen })
  | .xform => .command (wordOf { op := 0x03#8, rsv := 0x00#8, b := 0x00#8, a := 0x00#8 })
  | .wipe => .command (wordOf { op := 0x04#8, rsv := 0x00#8, b := 0x00#8, a := 0x00#8 })
  | .data d => .data d

/-- The decoder on the opcode table's numbering: a row of 32 bits is a command word, presented in parallel on `cmd` (R58),
a row of 8 bits a byte on `din`; there is no other width (log 15). -/
def decodeTableWord (nbits w : Nat) : Option Instr :=
  if nbits = 32 ∧ w < 2 ^ 32 then (decode (.command (BitVec.ofNat 32 w))).toOption
  else if nbits = 8 ∧ w < 2 ^ 8 then (decode (.data (BitVec.ofNat 8 w))).toOption
  else none

end Sys2Proof
end

