-- ==== Sys2Proof/Config.lean ====
section
/-! DEFINITION. What is fixed for the engine (R5) and what the spec leaves free (R7, R201).
The parameters `RESET_KIND`, `FIFO_DEPTH`, `CYCLES_*` and `P_PORTS` are read by no rule and are left out (R7). -/

namespace Sys2Proof

/-- KSA rounds of one schedule pass: "exactly 768 rounds" (R5, R112). -/
@[irreducible] def Config.rounds : Nat := 768

/-- Entries of the permutation RAM (R5, R50). -/
@[irreducible] def Config.entries : Nat := 256

/-- Size of the material space: 2 banks of 64 bytes (R54). -/
def Config.matSize : Nat := 128

/-- Shortest admitted key or IV, in bytes (R5, R113). -/
def Config.lmin : Nat := 16

/-- Longest admitted key or IV, in bytes (R5, R113). -/
def Config.lmax : Nat := 64

/-- `P_RESET` (R7, R201): the byte that entry `a` of `P` holds when nothing has written it since reset number `k`.
DESIGN CHOICE (log 1), safe: a free value, "under no law: not a permutation, not zero, not equal between two resets". -/
opaque Config.pReset (k : Nat) (a : Byte) : Byte

/-- The byte that material address `a` holds before the host has set it. The spec gives the banks no first contents
(R55, D7). DESIGN CHOICE (log 2), safe: a free value. -/
opaque Config.matUnset (a : MatAddr) : Byte

end Sys2Proof
end

