-- ==== Sys2Proof/Machine/State.lean ====
section
/-! DEFINITION. The engine's state (10_state.md, 20_memory.md), its reset value (R37, R200) and the reasons a step can
stop. Registers keep the spec's names. -/

namespace Sys2Proof.Machine

/-- The sequencer's phase, in place of a program counter (R29). -/
inductive Phase where
  /-- 0: no operation runs, no call is open. -/
  | idle
  /-- 1: the identity fill runs. -/
  | fill
  /-- 2: a schedule pass runs or is about to be checked. -/
  | ksa
  /-- 3: a transform call is open; data beats are accepted. -/
  | stream
  /-- 4: the zeroization runs. -/
  | wiping
  deriving DecidableEq, Repr

/-- The 3-bit value of `PH` (R29); "Values 5 to 7 are never taken". -/
def Phase.code : Phase → BitVec 3
  | .idle => 0#3
  | .fill => 1#3
  | .ksa => 2#3
  | .stream => 3#3
  | .wiping => 4#3

/-- One thing the host does at the ports (R80; INVENTORY.md, Host interface). -/
inductive HostEvent where
  /-- The host offers `w` on the command channel until it is accepted (R81). -/
  | cmd (w : CommandWord)
  /-- The host offers `d` on the data-in channel until it is accepted (R141). -/
  | data (d : Byte)
  /-- The host takes one byte from the data-out channel, if one is offered (R84). -/
  | take
  /-- The host sets one byte of the material space (R55, R89 `.key` and `.iv`). -/
  | mat (a : MatAddr) (v : Byte)
  /-- The host asserts `rst`, or power returns (R200, R184). -/
  | rst
  deriving DecidableEq, Repr

/-- A memory: the bytes written so far, by address, in one canonical form. An unlisted address holds no value (R52). -/
abbrev Memory := List Host.Cell

/-- The canonical form: addresses strictly rising, all below `size`. An unlisted address has no value of its own, so no
entry can repeat what an unlisted address reads as (log 1). -/
abbrev Memory.wf (size : Nat) (m : Memory) : Prop :=
  m.Pairwise (fun c c' => c.1 < c'.1) ∧ ∀ c ∈ m, c.1 < size

/-- Everything the spec gives the machine (INVENTORY.md, State). -/
structure State where
  /-- The permutation RAM, 256 x 8 (R50). -/
  P : Memory
  /-- The model's own: how many resets there have been; selects the free bytes of an unwritten `P` entry (log 1). -/
  pEpoch : Nat
  /-- The state register (R20). -/
  S : Byte
  /-- The byte index of the keystream generator (R21). -/
  N : Byte
  /-- The KSA round counter, 0..768 (R22). -/
  M : BitVec 10
  /-- The material byte index (R23). -/
  J : BitVec 6
  /-- Which schedule pass runs: 0 key, 1 IV, 2 key again (R28). -/
  PASS : BitVec 2
  /-- The latched key length (R28). -/
  KL : Byte
  /-- The latched IV length (R28). -/
  IL : Byte
  /-- The latched variant: false standard, true strengthened (R28). -/
  X : Bool
  /-- The phase (R29). -/
  PH : Phase
  /-- The valid flag (R24). -/
  V : Bool
  /-- The size-error flag (R25). -/
  ERR : Bool
  /-- The offending length (R27). -/
  ERRLEN : Byte
  /-- The refused-command flag (R26). -/
  ILL : Bool
  /-- The material space, owned by the host (R55). -/
  MAT : Memory
  /-- What the host still offers, oldest first: `DIN` and the command words in one order (R57, R63; log 4). -/
  host : List HostEvent
  /-- Outputs of accepted data bytes that the host has not taken yet, oldest first (R81, R146; log 5). -/
  outQ : List Byte
  /-- `DOUT`: the bytes the host has taken, oldest first (R57; log 5). -/
  dout : List Byte
  /-- The model's own sticky copy of `ILL`, which U1 and U8 ask for (log 8). -/
  illSeen : Bool
  deriving DecidableEq, Repr

/-- The reasons the machine stops with a fault: none. Every condition of R171 is a next state with a flag set, and "there
is no other synchronous exception". Safe: there is nothing to raise (log 13). -/
inductive Fault
  deriving DecidableEq, Repr

/-- The reasons for having no meaning. -/
inductive Refusal where
  /-- Raised by an arm of `exec` whose instruction has no meaning yet: no arm raises it. Safe. -/
  | notModelled (mnemonic : String)
  deriving DecidableEq, Repr

/-- The outcome of an instruction or a step. -/
abbrev Result := Host.Outcome State Fault Refusal

/-- The machine right after reset: every register as R37 and R200 say; no entry of `P` written, so that all 256 are
unspecified (R201); nothing offered, nothing delivered, no material set by the host (log 1, log 2, log 4, log 5). -/
def State.reset : State :=
  { P := [], pEpoch := 0, S := 0x00#8, N := 0x00#8, M := 0#10, J := 0#6, PASS := 0#2, KL := 0x00#8, IL := 0x00#8,
    X := false, PH := .idle, V := false, ERR := false, ERRLEN := 0x00#8, ILL := false,
    MAT := [], host := [], outQ := [], dout := [], illSeen := false }

end Sys2Proof.Machine
end

