-- ==== Sys2Proof/Machine/Ops.lean ====
section
/-! DEFINITION. The named operations over memory, registers and channels (20_memory.md), the common acceptance of a
command word (R81), the entry of the two conditions (R172, R173) and the effect of `rst` (R200). There is no return
operation: "There is no return instruction, because nothing was entered" (R176). -/

namespace Sys2Proof.Machine

/-- The byte listed at an address, if any. -/
def Memory.lookup : Memory → Nat → Option Byte
  | [], _ => none
  | c :: m, a => if c.1 = a then some c.2 else Memory.lookup m a

/-- Store a byte, keeping the list strictly rising. -/
def Memory.write : Memory → Nat → Byte → Memory
  | [], a, v => [(a, v)]
  | c :: m, a, v =>
    if a < c.1 then (a, v) :: c :: m
    else if a = c.1 then (a, v) :: m
    else c :: Memory.write m a v

/-- `P[a]`, `MemRead(a, 1)` (R52). An entry that nothing has written since reset is a free byte (R201). -/
def State.readP (s : State) (a : Byte) : Byte :=
  (s.P.lookup a.toNat).getD (Config.pReset s.pEpoch a)

/-- `P[a] <- v`, `MemWrite(a, 1, v)` (R53). -/
def State.writeP (s : State) (a v : Byte) : State := { s with P := s.P.write a.toNat v }

/-- `swap(P[x], P[y])`: both reads before both writes (R61). -/
def State.swapP (s : State) (x y : Byte) : State := (s.writeP x (s.readP y)).writeP y (s.readP x)

/-- `for i in 0..k-1: P[i] <- f i`. -/
def Memory.storeUpTo (f : Byte → Byte) : Nat → Memory → Memory
  | 0, m => m
  | k + 1, m => (Memory.storeUpTo f k m).write k (f (BitVec.ofNat 8 k))

/-- `for i in 0..255: P[i] <- f i`: the loop of the identity fill and of the wipe (R70, R114, R160). -/
def Memory.storeAll (f : Byte → Byte) (m : Memory) : Memory := Memory.storeUpTo f Config.entries m

/-- The loop over the whole permutation RAM. -/
def State.storeAll (s : State) (f : Byte → Byte) : State := { s with P := s.P.storeAll f }

/-- The address `{bank, idx}` on `mat_bank` and `mat_idx`: bank 0 the key, bank 1 the IV (R55, R66, R80). -/
def matAddress (bank : BitVec 1) (idx : BitVec 6) : MatAddr := bank ++ idx

/-- `MatRead(b, j)` (R55). A byte that the host has not set is a free byte (log 2). -/
def State.matRead (s : State) (bank : BitVec 1) (idx : BitVec 6) : Byte :=
  (s.MAT.lookup (matAddress bank idx).toNat).getD (Config.matUnset (matAddress bank idx))

/-- The host sets one material byte (R55, R89). The engine never does. -/
def State.setMat (s : State) (a : MatAddr) (v : Byte) : State := { s with MAT := s.MAT.write a.toNat v }

/-- `DoutPut(v)`: one byte offered on the data-out channel, behind those not taken yet (R57, R146). -/
def State.doutPut (s : State) (v : Byte) : State := { s with outQ := s.outQ ++ [v] }

/-- One data-out beat: the host takes the oldest outstanding byte; no beat if there is none (R84, R146). -/
def State.deliver (s : State) : State :=
  match s.outQ with
  | [] => s
  | q :: qs => { s with outQ := qs, dout := s.dout ++ [q] }

/-- The common first actions of every accepted command word: `PH <- IDLE; ILL <- 0` (R81). -/
def State.accept (s : State) : State := { s with PH := .idle, ILL := false }

/-- `raise InvalidKeyOrIVSize(L)` (R172). Nothing is saved or vectored; the command is over. -/
def State.raiseInvalidSize (s : State) (L : Byte) : State := { s with ERR := true, ERRLEN := L, PH := .idle }

/-- `raise Illegal` (R173); `illSeen` is the model's sticky copy (log 8). -/
def State.raiseIllegal (s : State) : State := { s with ILL := true, illSeen := true }

/-- A reserved command word: the acceptance actions of R81, then `raise Illegal` (R87). -/
def State.refuseWord (s : State) : State := s.accept.raiseIllegal

/-- `rst` (R200 to R202): every register to its reset value, outstanding outputs dropped, `P` unspecified anew. The
material, what the host still offers, what it has taken and the sticky mark are not the block's registers (log 12). -/
def State.hostReset (s : State) : State :=
  { State.reset with
    pEpoch := s.pEpoch + 1, MAT := s.MAT, host := s.host, dout := s.dout, illSeen := s.illSeen }

end Sys2Proof.Machine
end

