-- ==== Sys2Proof/Machine/Operands.lean ====
section
/-! DEFINITION. Operand assembly (R85), the length test (R113), the bank and length of a pass (R118), the counters (R22,
R23, R69) and the five forms of `P` address (R70). -/

namespace Sys2Proof.Machine

/-- `klen = zext(A)`, `ivlen = zext(B)`: "unsigned byte counts, 0 to 255, used as they stand" (R85). -/
def byteCount (field : Byte) : Nat := field.toNat

/-- The length test of a pass: `16 <= L <= 64`, both bounds inclusive (R113). -/
def lengthOk (L : Byte) : Bool := decide (Config.lmin ≤ byteCount L) && decide (byteCount L ≤ Config.lmax)

/-- The bank pass `p` reads: the IV in pass 1, the key otherwise (R118). -/
def passBank (p : BitVec 2) : BitVec 1 := if p = 1#2 then 1#1 else 0#1

/-- The length pass `p` runs over: `IL` in pass 1, `KL` otherwise (R118). -/
def State.passLength (s : State) (p : BitVec 2) : Byte := if p = 1#2 then s.IL else s.KL

/-- `J <- 0 if J + 1 = L else J + 1`, the comparison as 7-bit values (R23, R69, R111). -/
def nextJ (J : BitVec 6) (L : Byte) : BitVec 6 := if J.toNat + 1 = byteCount L then 0#6 else J + 1#6

/-- Counter-direct, KSA: `n = M[7:0]` (R22, R70). -/
def State.ksaPos (s : State) : Byte := s.M.extractLsb' 0 8

/-- Counter-direct, keystream generator: `n = N` (R21, R70). -/
def State.ksPos (s : State) : Byte := s.N

/-- State-plus-data indexed, with material: `S +8 P[n] +8 MatRead(b, J)` (R70, R110). -/
def State.ksaIndex (s : State) (bank : BitVec 1) : Byte := s.S + s.readP s.ksaPos + s.matRead bank s.J

/-- State-plus-data indexed: `S +8 P[n]` (R70, R142). -/
def State.ksIndex (s : State) : Byte := s.S + s.readP s.ksPos

/-- State-direct, KSA round: the new running state `s1 = P[idx]`, which is then an address (R70, R110). -/
def State.ksaNewS (s : State) (bank : BitVec 1) : Byte := s.readP (s.ksaIndex bank)

/-- State-direct, keystream step: the new running state `s1 = P[S +8 a]`, which is then an address (R70, R142). -/
def State.ksNewS (s : State) : Byte := s.readP s.ksIndex

/-- Double-indirect plus one: `P[P[s1]] +8 1` (R70, R142). -/
def State.ksOutIndex (s : State) : Byte := s.readP (s.readP s.ksNewS) + 1#8

end Sys2Proof.Machine
end

