-- ==== Sys2Proof/Machine/Flags.lean ====
section
/-! DEFINITION. What the ports show of the state: `BUSY`, `STRM`, `STATUS` (R31, R32, R91) and the ready and valid signals
(R80, R81, R141). All are functions of the state; reading them changes nothing (R68). -/

namespace Sys2Proof.Machine

/-- `BUSY`: `PH` is `FILL`, `KSA` or `WIPING` (R31). -/
def State.busy (s : State) : Bool :=
  match s.PH with
  | .idle => false
  | .fill => true
  | .ksa => true
  | .stream => false
  | .wiping => true

/-- `STRM`: `PH = STREAM` (R32). -/
def State.strm (s : State) : Bool := s.PH == .stream

/-- The 16-bit status word (R32): `ERRLEN`, three zero bits, `STRM`, `ILL`, `ERR`, `V`, `BUSY`. -/
def State.status (s : State) : BitVec 16 :=
  s.ERRLEN ++ 0#3 ++ BitVec.ofBool s.strm ++ BitVec.ofBool s.ILL ++ BitVec.ofBool s.ERR ++ BitVec.ofBool s.V
    ++ BitVec.ofBool s.busy

/-- `dout_valid`: an output byte is offered (R80). -/
def State.doutValid (s : State) : Bool := !s.outQ.isEmpty

/-- `dout`: the byte offered, if any (R80). -/
def State.doutPort (s : State) : Option Byte := s.outQ.head?

/-- `cmd_ready`: `PH` is `IDLE` or `STREAM` and every accepted data byte has had its output taken (R81). -/
def State.cmdReady (s : State) : Bool := !s.busy && s.outQ.isEmpty

/-- `din_ready`: `PH = STREAM` (R141). -/
def State.dinReady (s : State) : Bool := s.strm

end Sys2Proof.Machine
end

