-- ==== Sys2Proof/Machine/KeySchedule.lean ====
section
/-! DEFINITION. Key scheduling and the two initialization commands (40_ksa.md). -/

namespace Sys2Proof.Machine

/-- One KSA round over bank `bank` and length `L` (R110): three reads, then the swap of `P[n]` and `P[s1]`. -/
def State.ksaRound (s : State) (bank : BitVec 1) (L : Byte) : State :=
  { s.swapP s.ksaPos (s.ksaNewS bank) with S := s.ksaNewS bank, M := s.M + 1#10, J := nextJ s.J L }

/-- The first `k` rounds of a pass, one after another (R112: "runs exactly 768 rounds"). -/
def State.ksaRounds (bank : BitVec 1) (L : Byte) : Nat → State → State
  | 0, s => s
  | k + 1, s => (State.ksaRounds bank L k s).ksaRound bank L

/-- The rounds of an admitted pass: `M <- 0; J <- 0`, then 768 rounds from the `P` and `S` as they stand (R112, R120). `M` counts
them: it is 768 exactly at the end, so that `while M != 768` runs these and no others (`State.ksaRounds_M`). -/
def State.ksaRun (s : State) (bank : BitVec 1) (L : Byte) : State :=
  State.ksaRounds bank L Config.rounds { s with M := 0#10, J := 0#6 }

/-- One schedule pass (R112) with its length check (R113). `.error` is the state after the raise, which ends the command. -/
def State.ksaPass (s : State) (bank : BitVec 1) (L : Byte) : Except State State :=
  if lengthOk L then .ok (s.ksaRun bank L) else .error (s.raiseInvalidSize L)

/-- The acceptance of `INIT` (`x = false`) or `INIT3` (`x = true`) after the common actions (R115). -/
def State.acceptInit (s : State) (x : Bool) (klen ivlen : Byte) : State :=
  { s.accept with
    V := false, ERR := false, ERRLEN := 0x00#8, KL := klen, IL := ivlen, X := x,
    PASS := 0#2, M := 0#10, J := 0#6, PH := .fill }

/-- The identity fill: `P[i] <- i` for every `i`, `S <- 0` (R114). -/
def State.identityFill (s : State) : State := { s.storeAll id with S := 0x00#8 }

/-- Pass `p` with its bank and length, `PASS <- p` first (R118). -/
def State.runPass (s : State) (p : BitVec 2) : Except State State :=
  ({ s with PASS := p } : State).ksaPass (passBank p) (s.passLength p)

/-- The passes in the order key, IV, key (R118); a raise ends the command at once. -/
def State.runPasses (s : State) : Except State State :=
  match ({ s with PH := .ksa } : State).runPass 0#2 with
  | .error e => .error e
  | .ok s0 =>
    match (if s0.IL ≠ 0x00#8 then s0.runPass 1#2 else .ok s0) with
    | .error e => .error e
    | .ok s1 => if s1.X then s1.runPass 2#2 else .ok s1

/-- Completion: `V <- 1; PH <- IDLE` (R119). -/
def State.completeInit (s : State) : State := { s with V := true, PH := .idle }

/-- A whole initialization from acceptance to its end (R116, R117). -/
def State.initCommand (s : State) (x : Bool) (klen ivlen : Byte) : State :=
  match (s.acceptInit x klen ivlen).identityFill.runPasses with
  | .ok t => t.completeInit
  | .error t => t

/-- `INIT klen, ivlen` (R116). While `cmd_ready = 0` the beat does not happen and nothing changes (R81, log 11). -/
def execInit (klen ivlen : Byte) (s : State) : Result :=
  .next (if s.cmdReady then s.initCommand false klen ivlen else s)

/-- `INIT3 klen, ivlen` (R117). While `cmd_ready = 0` the beat does not happen and nothing changes (R81, log 11). -/
def execInit3 (klen ivlen : Byte) (s : State) : Result :=
  .next (if s.cmdReady then s.initCommand true klen ivlen else s)

end Sys2Proof.Machine
end

