-- ==== Sys2Proof/Machine/Keystream.lean ====
section
/-! DEFINITION. The keystream transform (41_keystream.md). -/

namespace Sys2Proof.Machine

/-- `XFORM` after acceptance (R140): refused while `V = 0`, else `N <- 0; PH <- STREAM`. -/
def State.openCall (s : State) : State :=
  if s.V then { s.accept with N := 0x00#8, PH := .stream } else s.accept.raiseIllegal

/-- The keystream byte `z = P[c +8 1]`, from `P` as it was before the swap (R142). -/
def State.ksByte (s : State) : Byte := s.readP s.ksOutIndex

/-- One keystream step on the byte `d` (R142): five reads, the XOR combiner, the swap of `P[n]` and `P[s1]`. -/
def State.ksStep (s : State) (d : Byte) : State :=
  ({ s.swapP s.ksPos s.ksNewS with S := s.ksNewS, N := s.N + 1#8 } : State).doutPut (d ^^^ s.ksByte)

/-- `XFORM` (R140). While `cmd_ready = 0` the beat does not happen and nothing changes (R81, log 11). -/
def execXform (s : State) : Result := .next (if s.cmdReady then s.openCall else s)

/-- `DATA d` (R142). While `din_ready = 0` "the host's beat does not happen and no state changes" (R141). -/
def execData (d : Byte) (s : State) : Result := .next (if s.dinReady then s.ksStep d else s)

end Sys2Proof.Machine
end

