-- ==== Sys2Proof/Machine/Wipe.lean ====
section
/-! DEFINITION. State zeroization (42_wipe.md). -/

namespace Sys2Proof.Machine

/-- The acceptance of `WIPE` after the common actions: `PH <- WIPING; V <- 0` (R160). -/
def State.acceptWipe (s : State) : State := { s.accept with PH := .wiping, V := false }

/-- The zeroization: `P`, `S`, `N`, `ERR`, `ERRLEN`, then `PH <- IDLE` (R160). The sequencer's registers are not written. -/
def State.zeroize (s : State) : State :=
  { s.storeAll (fun _ => 0x00#8) with S := 0x00#8, N := 0x00#8, ERR := false, ERRLEN := 0x00#8, PH := .idle }

/-- `WIPE` (R160). While `cmd_ready = 0` the beat does not happen and nothing changes (R81, log 11). -/
def execWipe (s : State) : Result := .next (if s.cmdReady then s.acceptWipe.zeroize else s)

end Sys2Proof.Machine
end

