-- ==== Sys2Proof/Machine/Dispatch.lean ====
section
/-! DEFINITION. One arm per instruction. -/

namespace Sys2Proof.Machine

def exec (i : Instr) (s : State) : Host.Outcome State Fault Refusal :=
  match i with
  | .init klen ivlen => Sys2Proof.Machine.execInit klen ivlen s
  | .init3 klen ivlen => Sys2Proof.Machine.execInit3 klen ivlen s
  | .xform => Sys2Proof.Machine.execXform s
  | .wipe => Sys2Proof.Machine.execWipe s
  | .data d => Sys2Proof.Machine.execData d s

end Sys2Proof.Machine
end

