-- ==== Sys2Proof/Machine/Ports.lean ====
section
/-! DEFINITION. The order in which the ports let the host's offers happen (R63, R81, R84, R141). -/

namespace Sys2Proof.Machine

/-- The host's first offer that the data-in channel does not hold back, with what is still offered after it. While
`din_ready = 0` a data byte waits on its own channel and the offers behind it on the other ports go ahead (R141, R212;
log 4). -/
def firstOffer (dinReady : Bool) : List HostEvent → Option (HostEvent × List HostEvent)
  | [] => none
  | .data d :: rest =>
    if dinReady then some (.data d, rest)
    else
      match firstOffer dinReady rest with
      | none => none
      | some (e, others) => some (e, .data d :: others)
  | .cmd w :: rest => some (.cmd w, rest)
  | .take :: rest => some (.take, rest)
  | .mat a v :: rest => some (.mat a v, rest)
  | .rst :: rest => some (.rst, rest)

/-- The next offer in state `s`. -/
def State.nextOffer (s : State) : Option (HostEvent × List HostEvent) := firstOffer s.dinReady s.host

/-- The state with the offers `rest` left. -/
def State.withHost (s : State) (rest : List HostEvent) : State := { s with host := rest }

/-- The command channel made ready: no operation running, no output outstanding (R81). -/
def State.cmdOpened (s : State) : State :=
  { s with PH := if s.busy then .idle else s.PH, outQ := [], dout := s.dout ++ s.outQ }

/-- The data-in channel made ready: a call is open (R141). -/
def State.dinOpened (s : State) : State := { s with PH := .stream }

end Sys2Proof.Machine
end

