-- ==== Sys2Proof/Machine/Sequencer.lean ====
section
/-! DEFINITION. The sequencer one position at a time (R29, R118; D1: "Internal phases and rounds are given so a finer model
can be built and shown equal to the coarse one"). The fill and the zeroization are one position each: nothing can observe
`P` inside them (R62, log 3). -/

namespace Sys2Proof.Machine

/-- Enter pass `p`: `PASS <- p`, the length check, then `M <- 0; J <- 0` or the raise (R112, R113, R118). -/
def State.enterPass (s : State) (p : BitVec 2) : State :=
  if lengthOk (s.passLength p) then { s with PASS := p, M := 0#10, J := 0#6 }
  else ({ s with PASS := p } : State).raiseInvalidSize (s.passLength p)

/-- The pass that follows the one that has ended, if any (R118). -/
def State.nextPass (s : State) : Option (BitVec 2) :=
  if s.PASS = 0#2 ∧ s.IL ≠ 0x00#8 then some 1#2
  else if s.PASS ≠ 2#2 ∧ s.X then some 2#2
  else none

/-- The end of a pass: the next pass is entered, or the initialization completes (R118, R119). -/
def State.endPass (s : State) : State :=
  match s.nextPass with
  | some p => s.enterPass p
  | none => s.completeInit

/-- One position of a running operation: the whole fill, one KSA round, the end of a pass, or the whole zeroization. -/
def State.seqStep (s : State) : State :=
  match s.PH with
  | .idle => s
  | .stream => s
  | .fill => ({ s.identityFill with PH := .ksa } : State).enterPass 0#2
  | .ksa =>
    if s.M = 768#10 then s.endPass else s.ksaRound (passBank s.PASS) (s.passLength s.PASS)
  | .wiping => s.zeroize

/-- Run the sequencer until the operation is over, for at most `k` positions. -/
def State.seqRun : Nat → State → State
  | 0, s => s
  | k + 1, s => if s.busy then State.seqRun k s.seqStep else s

/-- An operation has at most this many positions: the fill, and three passes of 768 rounds with their ends (R216). -/
def seqBound : Nat := 1 + 3 * (Config.rounds + 1)

end Sys2Proof.Machine
end

