-- ==== Sys2Proof/Machine/Step.lean ====
section
/-! DEFINITION. One step of the engine with its host (R63, R81, R141, R200): `rst` at any time; a running operation goes one
position on; an offered command word is executed whole once `cmd_ready = 1`; an offered data byte once `din_ready = 1`. -/

namespace Sys2Proof.Machine

/-- An accepted command word: decode it and perform its rule, or refuse it (R81, R86, R87). -/
def acceptWord (w : CommandWord) (s : State) : Result :=
  match decodeCommand w with
  | .ok i => exec i s
  | .error _ => .next s.refuseWord

/-- An offer that the ports let happen, in a state where no operation runs. -/
def takeOffer (e : HostEvent) (rest : List HostEvent) (s : State) : Result :=
  match e with
  | .cmd w => if s.cmdReady then acceptWord w (s.withHost rest) else .next s.deliver
  | .data d => exec (.data d) (s.withHost rest)
  | .take => .next (s.withHost rest).deliver
  | .mat a v => .next ((s.withHost rest).setMat a v)
  | .rst => .next (s.withHost rest).hostReset

/-- One step. With nothing to accept the host takes an outstanding output, or the engine waits (R200: "after reset it waits
for a command word"; R212; log 5, log 14). -/
def step (s : State) : Host.Outcome State Fault Refusal :=
  match s.nextOffer with
  | some (.rst, rest) => .next (s.withHost rest).hostReset
  | some (e, rest) => if s.busy then .next s.seqStep else takeOffer e rest s
  | none => if s.busy then .next s.seqStep else .next s.deliver

/-- `s` with the beat of an opcode-table word as the host's next offer and the channel it crosses ready to take it, so that
the next step accepts and runs it (log 10). -/
def State.withFetchWord (s : State) (nbits w : Nat) : State :=
  if nbits = 32 then (s.cmdOpened).withHost (.cmd (BitVec.ofNat 32 w) :: s.host)
  else if nbits = 8 then (s.dinOpened).withHost (.data (BitVec.ofNat 8 w) :: s.host)
  else s

end Sys2Proof.Machine
end

