-- ==== Sys2Proof/Machine/Assembler.lean ====
section
/-! DEFINITION. The spec's command syntax, its pseudo-commands, and the host's duty on lengths (R89, R90, R85, R214). -/

namespace Sys2Proof.Machine

/-- One line of the syntax of R89, or a pseudo-command of R90. Lengths are the numbers the host was handed. -/
inductive AsmItem where
  | init (klen ivlen : Nat)
  | init3 (klen ivlen : Nat)
  | xform
  | wipe
  | data (bytes : List Byte)
  /-- `.key b0 b1 ...`: the host sets `MAT[0][0..]`; no encoding. -/
  | key (bytes : List Byte)
  /-- `.iv b0 b1 ...`: the host sets `MAT[1][0..]`; no encoding. -/
  | iv (bytes : List Byte)
  | initk (klen : Nat)
  | init3k (klen : Nat)
  | enc
  | dec
  | xbytes (bytes : List Byte)
  deriving DecidableEq, Repr

/-- The expansion of a pseudo-command (R90); every other item stands for itself. -/
def AsmItem.expand : AsmItem → List AsmItem
  | .initk klen => [.init klen 0]
  | .init3k klen => [.init3 klen 0]
  | .enc => [.xform]
  | .dec => [.xform]
  | .xbytes bytes => [.xform, .data bytes]
  | .init klen ivlen => [.init klen ivlen]
  | .init3 klen ivlen => [.init3 klen ivlen]
  | .xform => [.xform]
  | .wipe => [.wipe]
  | .data bytes => [.data bytes]
  | .key bytes => [.key bytes]
  | .iv bytes => [.iv bytes]

/-- A length as an operand field. A host handed more than 255 "must not truncate the length into the field: it must report
`InvalidKeyOrIVSize` itself" (R214, U9): `.error` carries that length. -/
def lengthField (len : Nat) : Except Nat Byte := if len ≤ 255 then .ok (BitVec.ofNat 8 len) else .error len

/-- The host's offer of an instruction: its beat on its channel (R80). -/
def offerOf (i : Instr) : HostEvent :=
  match encode i with
  | .command w => .cmd w
  | .data d => .data d

/-- An `L2` command from two lengths (R89). Only a length above 255 is the host's to report (R214). With both above 255 the
key length is reported; with a key length of at most 255 and an IV length above 255 the IV length is, also where the key
length is not admitted (10, 300), of which R174 would name the key. The spec says neither of the host: DESIGN CHOICE
(log 16), unsafe for a claim that names the length. -/
def assembleL2 (form : Byte → Byte → Instr) (klen ivlen : Nat) : Except Nat (List HostEvent) :=
  match lengthField klen with
  | .error len => .error len
  | .ok a =>
    match lengthField ivlen with
    | .error len => .error len
    | .ok b => .ok [offerOf (form a b)]

/-- The host sets the first bytes of a bank. A bank has 64 bytes (R54): more cannot be placed (log 16). -/
def placeMaterial (bank : BitVec 1) (bytes : List Byte) : Except Nat (List HostEvent) :=
  if bytes.length ≤ 64 then
    .ok (bytes.zipIdx.map fun c => .mat (matAddress bank (BitVec.ofNat 6 c.2)) c.1)
  else .error bytes.length

/-- One item after expansion as the host's offers (R89). -/
def AsmItem.offers : AsmItem → Except Nat (List HostEvent)
  | .init klen ivlen => assembleL2 .init klen ivlen
  | .init3 klen ivlen => assembleL2 .init3 klen ivlen
  | .xform => .ok [offerOf .xform]
  | .wipe => .ok [offerOf .wipe]
  | .data bytes => .ok (bytes.map fun d => offerOf (.data d))
  | .key bytes => placeMaterial 0#1 bytes
  | .iv bytes => placeMaterial 1#1 bytes
  | .initk klen => assembleL2 .init klen 0
  | .init3k klen => assembleL2 .init3 klen 0
  | .enc => .ok [offerOf .xform]
  | .dec => .ok [offerOf .xform]
  | .xbytes bytes => .ok (offerOf .xform :: bytes.map fun d => offerOf (.data d))

/-- A program: its items' offers in order. A program with a length that must be reported answers the first such length and
offers none of its items, neither those behind the bad one nor those before it. The spec says only that the host reports
the length and does not issue that command (R85, R214): DESIGN CHOICE (log 16), unsafe for a claim that none of the other
items is offered. -/
def assemble : List AsmItem → Except Nat (List HostEvent)
  | [] => .ok []
  | item :: items =>
    match item.offers with
    | .error len => .error len
    | .ok here =>
      match assemble items with
      | .error len => .error len
      | .ok later => .ok (here ++ later)

end Sys2Proof.Machine
end

