-- ==== Sys2Proof/Machine/Reference.lean ====
section
/-! DEFINITION. The source document's operations as R1, R9, R11, R110, R112 to R120 and R142 quote them, on a permutation and a
running state alone: no registers, no ports, `m mod L` and `k mod 256` written out. Claims compare the engine with them. -/

namespace Sys2Proof.Machine

/-- The document's cipher state: the permutation and the running state (R1, glossary). -/
structure Cipher where
  perm : Byte → Byte
  run : Byte

/-- Swap `permutation[x]` and `permutation[y]` (R61). -/
def Cipher.swap (c : Cipher) (x y : Byte) : Byte → Byte :=
  fun i => if i = y then c.perm x else if i = x then c.perm y else c.perm i

/-- Round `m` over `material`: `s <- permutation[(s + permutation[n] + material[m mod length(material)]) mod 256]` with
`n = m mod 256`, then the swap of `permutation[n]` and `permutation[s]` (R110). -/
def Cipher.round (material : List Byte) (m : Nat) (c : Cipher) : Cipher :=
  let n := BitVec.ofNat 8 m
  let s := c.perm (c.run + c.perm n + material.getD (m % material.length) 0#8)
  { perm := c.swap n s, run := s }

/-- Rounds `0` to `k - 1`. -/
def Cipher.rounds (material : List Byte) : Nat → Cipher → Cipher
  | 0, c => c
  | k + 1, c => (Cipher.rounds material k c).round material k

/-- `schedule(state, material)`: 768 rounds, or `InvalidKeyOrIVSize(length)` (R112, R113). -/
def Cipher.schedule (c : Cipher) (material : List Byte) : Except Nat Cipher :=
  if Config.lmin ≤ material.length ∧ material.length ≤ Config.lmax then .ok (Cipher.rounds material Config.rounds c)
  else .error material.length

/-- The identity permutation and running state 0 (R114). -/
def Cipher.identity : Cipher := { perm := fun i => i, run := 0x00#8 }

/-- The standard protocol: key, then the IV unless it has length 0 (R116). -/
def Cipher.standard (key iv : List Byte) : Except Nat Cipher :=
  match Cipher.identity.schedule key with
  | .error len => .error len
  | .ok c => if iv.length ≠ 0 then c.schedule iv else .ok c

/-- The strengthened protocol: the standard protocol in full, then the key a second time (R117). -/
def Cipher.strengthened (key iv : List Byte) : Except Nat Cipher :=
  match Cipher.standard key iv with
  | .error len => .error len
  | .ok c => c.schedule key

/-- One byte of a transform at position `k` of the call: the destination byte and the state after it (R142). -/
def Cipher.transformByte (c : Cipher) (k : Nat) (source : Byte) : Byte × Cipher :=
  let n := BitVec.ofNat 8 k
  let s := c.perm (c.run + c.perm n)
  (source ^^^ c.perm (c.perm (c.perm s) + 1#8), { perm := c.swap n s, run := s })

/-- `transform(state, source)` from position `k` of the call on (R142, R144). -/
def Cipher.transform (c : Cipher) (k : Nat) : List Byte → List Byte × Cipher
  | [] => ([], c)
  | d :: ds =>
    let here := c.transformByte k d
    let later := here.2.transform (k + 1) ds
    (here.1 :: later.1, later.2)

end Sys2Proof.Machine
end

