-- ==== Sys2Proof/Safety.lean ====
section
/-! DEFINITION. What counts as a sound state and a safe run, in the terms the claims use (R36, R51, R175, R180). -/

namespace Sys2Proof.Machine

/-- `P` is a permutation of {0,...,255} (R51). -/
def State.IsPermutation (s : State) : Prop := Function.Bijective s.readP

/-- Every entry of `P` has been written since reset: no unspecified byte remains (R114, R201). -/
def State.FullyWritten (s : State) : Prop := ∀ a : Byte, (s.P.lookup a.toNat).isSome

/-- Both memories are in canonical form. -/
def State.MemoryOk (s : State) : Prop := s.P.wf Config.entries ∧ s.MAT.wf Config.matSize

/-- The counters and the pass number stay in the ranges of R22 and R28. -/
def State.CountersOk (s : State) : Prop := s.M.toNat ≤ Config.rounds ∧ s.PASS ≠ 3#2

/-- Inside an initialization or a wipe: `V` and `ERR` were cleared at acceptance, and after the fill `P` is a permutation
with no unspecified byte (R51, R115, R160). -/
def State.OperationOk (s : State) : Prop :=
  (s.PH = .fill → s.V = false ∧ s.ERR = false ∧ s.ERRLEN = 0x00#8) ∧
  (s.PH = .ksa → s.V = false ∧ s.ERR = false ∧ s.ERRLEN = 0x00#8 ∧ s.IsPermutation ∧ s.FullyWritten) ∧
  (s.PH = .wiping → s.V = false)

/-- The four flag invariants of R36. -/
structure State.FlagsOk (s : State) : Prop where
  validNoError : s.V = true → s.ERR = false
  validPermutation : s.V = true → s.IsPermutation
  noErrorNoLength : s.ERR = false → s.ERRLEN = 0x00#8
  streamValid : s.PH = .stream → s.V = true ∧ s.ILL = false

/-- A sound state: R36's flag invariants with what they rest on. -/
structure State.Inv (s : State) : Prop where
  memory : s.MemoryOk
  counters : s.CountersOk
  operation : s.OperationOk
  flags : s.FlagsOk
  written : s.V = true → s.FullyWritten

/-- The lifecycle conditions between commands (R180). -/
inductive Lifecycle where
  | invalid
  | ready
  | streaming
  deriving DecidableEq, Repr

/-- The condition an engine with no operation running is in (R180). -/
def State.lifecycle (s : State) : Lifecycle :=
  if s.V then (if s.strm then .streaming else .ready) else .invalid

/-- The beats `is`, offered to the engine one after another. -/
def execAll : List Instr → State → Result
  | [], s => .next s
  | i :: is, s =>
    match exec i s with
    | .next t => execAll is t
    | .fault f => .fault f
    | .refused r => .refused r

/-- The host has taken every outstanding output. -/
def State.allTaken (s : State) : State := { s with outQ := [], dout := s.dout ++ s.outQ }

/-- The key or IV of `L` bytes in a bank: `MAT[bank][0..L-1]` (R56). -/
def State.material (s : State) (bank : BitVec 1) (L : Byte) : List Byte :=
  (List.range (byteCount L)).map fun j => s.matRead bank (BitVec.ofNat 6 j)

/-- The cipher state of the engine, as the document has it. -/
def State.cipher (s : State) : Cipher := { perm := s.readP, run := s.S }

/-- A key length the engine admits (R113, R171). -/
def AdmittedKey (klen : Byte) : Prop := 16 ≤ klen.toNat ∧ klen.toNat ≤ 64

/-- An IV length the engine admits: 0, which means no IV, or 16 to 64 (R113, R118, R171). -/
def AdmittedIv (ivlen : Byte) : Prop := ivlen = 0x00#8 ∨ (16 ≤ ivlen.toNat ∧ ivlen.toNat ≤ 64)

/-- `M`, `J`, `PASS`, `KL`, `IL`, `X` unchanged. -/
def SameSequencer (s t : State) : Prop :=
  t.M = s.M ∧ t.J = s.J ∧ t.PASS = s.PASS ∧ t.KL = s.KL ∧ t.IL = s.IL ∧ t.X = s.X

/-- `PH` and every flag unchanged; `illSeen` is the model's own field (log 8). -/
def SameFlags (s t : State) : Prop :=
  t.PH = s.PH ∧ t.V = s.V ∧ t.ERR = s.ERR ∧ t.ERRLEN = s.ERRLEN ∧ t.ILL = s.ILL ∧ t.illSeen = s.illSeen

/-- What no instruction touches: the material, the host's offers, the bytes the host has taken (logs 4, 5), the free bytes'
epoch (log 1). -/
def SameEnvironment (s t : State) : Prop :=
  t.MAT = s.MAT ∧ t.host = s.host ∧ t.dout = s.dout ∧ t.pEpoch = s.pEpoch

/-- What the host can see of the engine: `STATUS`, the ready and valid signals, the bytes delivered and outstanding (R38). -/
def State.visible (s : State) : BitVec 16 × Bool × Bool × List Byte × List Byte :=
  (s.status, s.cmdReady, s.dinReady, s.outQ, s.dout)

/-- No operation runs and the cipher state is invalid: what is left in `P`, `S`, `N` and the sequencer's registers is then
"unobservable" (R30, R175, R201). -/
def State.Spent (s : State) : Prop := s.PH = .idle ∧ s.V = false

/-- Two engines that the host drives alike and cannot tell apart: equal in the flags, in the material and at the ports. `N` may
differ outside a call, where no step reads it before an `XFORM` rewrites it (R21); the sequencer's registers while no
operation runs (R30); `P` and `S` in a spent state (R175, R201); the free bytes' epoch always (log 1). -/
def Indistinguishable (s t : State) : Prop :=
  SameFlags s t ∧ t.MAT = s.MAT ∧ t.host = s.host ∧ t.outQ = s.outQ ∧ t.dout = s.dout ∧
    (s.PH = .stream → t.N = s.N) ∧ (s.busy = true → SameSequencer s t) ∧ (¬ s.Spent → t.P = s.P ∧ t.S = s.S)

/-- A safe run: `k` steps that stop at no fault and no refusal and in which no command word is refused. -/
def SafeRun (k : Nat) (s : State) : Prop :=
  ∃ t, Host.Core.run Sys2Proof.core k s = .next t ∧ t.illSeen = s.illSeen

end Sys2Proof.Machine
end

