-- ==== Sys2Proof/Certificates/Slice0/Obligations.lean ====
section
/-! DEFINITION. The statements about the engine. R<n> are the rules of spec/. -/

open Sys2Proof Sys2Proof.Machine

/-! ## Encoding -/

/-- Words written out from the tables of R86 and R89 and file 95 decode to what they stand for. -/
def Obligations.WordsOfTheSpecDecode : Prop :=
  decode (.command 0x01001010#32) = .ok (.init 16#8 16#8) ∧
  decode (.command 0x01000028#32) = .ok (.init 40#8 0#8) ∧
  decode (.command 0x02002840#32) = .ok (.init3 64#8 40#8) ∧
  decode (.command 0x03000000#32) = .ok .xform ∧
  decode (.command 0x04000000#32) = .ok .wipe ∧
  decode (.data 0x56#8) = .ok (.data 0x56#8) ∧
  decode (.command 0x00000000#32) = .error .opcode ∧
  decode (.command 0x01011010#32) = .error .rsvField ∧
  decode (.command 0x04001000#32) = .error .formatZ

/-- Decoding an encoded instruction gives it back, on its beat and in the opcode table's numbering (R82 to R86). -/
def Obligations.DecodeInvertsEncode : Prop :=
  ∀ i : Instr, i.wellFormed = true →
    decode (encode i) = .ok i ∧
    (∀ w, encode i = .command w → decodeTableWord 32 w.toNat = some i) ∧
    (∀ d, encode i = .data d → decodeTableWord 8 d.toNat = some i)

/-- No two beats stand for the same instruction: whatever decodes is the encoding of what it decodes to (R86). -/
def Obligations.EncodeInvertsDecode : Prop :=
  ∀ (b : Beat) (i : Instr), decode b = .ok i → encode i = b

/-- The reserved words are exactly the three classes of R87, and a reserved word sets `ILL` and changes nothing else beyond
what its acceptance did (`PH <- IDLE`). Nothing is said here of the model's own `illSeen`. -/
def Obligations.ReservedWordsAreRefused : Prop :=
  (∀ w : CommandWord, (∃ r, decodeCommand w = .error r) ↔
    (w.extractLsb' 24 8 = 0x00#8 ∨ 0x05#8 ≤ w.extractLsb' 24 8) ∨
    ((w.extractLsb' 24 8 = 0x01#8 ∨ w.extractLsb' 24 8 = 0x02#8) ∧ w.extractLsb' 16 8 ≠ 0x00#8) ∨
    ((w.extractLsb' 24 8 = 0x03#8 ∨ w.extractLsb' 24 8 = 0x04#8) ∧ w.extractLsb' 0 24 ≠ 0#24)) ∧
  (∀ (s : State) (w : CommandWord) (rest : List HostEvent), s.nextOffer = some (.cmd w, rest) → s.cmdReady = true →
    (∃ r, decodeCommand w = .error r) →
    ∃ t, step s = .next t ∧ t = { s with host := rest, PH := .idle, ILL := true, illSeen := t.illSeen })

/-- The words and the expansions of the assembler (R89, R90): the formulas of R89, and every pseudo-command assembles to what
its expansion assembles to. -/
def Obligations.AssemblerFollowsItsExpansions : Prop :=
  (∀ klen ivlen : Byte, encode (.init klen ivlen) =
    .command (0x01000000#32 ||| ivlen.zeroExtend 32 <<< 8 ||| klen.zeroExtend 32)) ∧
  (∀ klen ivlen : Byte, encode (.init3 klen ivlen) =
    .command (0x02000000#32 ||| ivlen.zeroExtend 32 <<< 8 ||| klen.zeroExtend 32)) ∧
  (∀ klen : Nat, (AsmItem.initk klen).expand = [.init klen 0] ∧ (AsmItem.init3k klen).expand = [.init3 klen 0]) ∧
  AsmItem.enc.expand = [.xform] ∧ AsmItem.dec.expand = [.xform] ∧
  (∀ bytes : List Byte, (AsmItem.xbytes bytes).expand = [.xform, .data bytes]) ∧
  (∀ item : AsmItem, assemble [item] = assemble item.expand)

/-- A length above 255 is reported and never truncated into a field (R214). Which length is reported when both are above 255,
or when the key length is not admitted either, is the model's choice (log 16). -/
def Obligations.LengthsAbove255AreReported : Prop :=
  ∀ klen ivlen : Nat,
    (255 < klen → (AsmItem.init klen ivlen).offers = .error klen ∧ (AsmItem.init3 klen ivlen).offers = .error klen) ∧
    (klen ≤ 255 → 255 < ivlen →
      (AsmItem.init klen ivlen).offers = .error ivlen ∧ (AsmItem.init3 klen ivlen).offers = .error ivlen) ∧
    (klen ≤ 255 → ivlen ≤ 255 → ∃ (w w' : CommandWord) (a b : Byte), a.toNat = klen ∧ b.toNat = ivlen ∧
      (AsmItem.init klen ivlen).offers = .ok [.cmd w] ∧ decodeCommand w = .ok (.init a b) ∧
      (AsmItem.init3 klen ivlen).offers = .ok [.cmd w'] ∧ decodeCommand w' = .ok (.init3 a b))

/-! ## Reset, ports, the step -/

/-- The state after reset (R37). `P` is unspecified: that it reads as free bytes, selected by a counter whose value at reset
does not matter here, is the model's choice (log 1). -/
def Obligations.ResetStateHasTheSpecifiedValues : Prop :=
  State.reset.S = 0x00#8 ∧ State.reset.N = 0x00#8 ∧ State.reset.M = 0#10 ∧ State.reset.J = 0#6 ∧
  State.reset.PASS = 0#2 ∧ State.reset.KL = 0x00#8 ∧ State.reset.IL = 0x00#8 ∧ State.reset.X = false ∧
  State.reset.PH = .idle ∧ State.reset.V = false ∧ State.reset.ERR = false ∧ State.reset.ILL = false ∧
  State.reset.ERRLEN = 0x00#8 ∧ State.reset.status = 0x0000#16 ∧
  ∀ a, State.reset.readP a = Config.pReset State.reset.pEpoch a

/-- R200: `rst` puts the block in the reset state whatever it was doing, with `cmd_ready = 1`, `din_ready = 0`,
`dout_valid = 0` and the bytes not yet delivered dropped. -/
def Obligations.RstResetsWhateverWasRunning : Prop :=
  ∀ (s : State) (rest : List HostEvent), s.nextOffer = some (.rst, rest) →
    ∃ t, step s = .next t ∧
      t.S = 0x00#8 ∧ t.N = 0x00#8 ∧ t.M = 0#10 ∧ t.J = 0#6 ∧ t.PASS = 0#2 ∧ t.KL = 0x00#8 ∧ t.IL = 0x00#8 ∧
      t.X = false ∧ t.PH = .idle ∧ t.V = false ∧ t.ERR = false ∧ t.ILL = false ∧ t.ERRLEN = 0x00#8 ∧
      t.status = 0x0000#16 ∧ t.cmdReady = true ∧ t.dinReady = false ∧ t.doutValid = false ∧ t.outQ = [] ∧
      t.dout = s.dout

/-- What `rst` does not reach, which is the model's choice (log 12): the material, the host's offers, the bytes it has taken,
the sticky mark. `P` reads as free bytes of a new epoch, whatever it held (R201; log 1). -/
def Obligations.RstLeavesTheHostsSide : Prop :=
  ∀ (s : State) (rest : List HostEvent), s.nextOffer = some (.rst, rest) →
    ∃ t, step s = .next t ∧ t.MAT = s.MAT ∧ t.host = rest ∧ t.dout = s.dout ∧ t.illSeen = s.illSeen ∧
      ∀ a, t.readP a = Config.pReset (s.pEpoch + 1) a

/-- R31, R32: `BUSY`, what it holds back, and the status word bit by bit. -/
def Obligations.StatusWordBitByBit : Prop :=
  ∀ s : State,
    (s.busy = true ↔ s.PH = .fill ∨ s.PH = .ksa ∨ s.PH = .wiping) ∧
    (s.status.getLsbD 0 = s.busy) ∧ (s.status.getLsbD 1 = s.V) ∧ (s.status.getLsbD 2 = s.ERR) ∧
    (s.status.getLsbD 3 = s.ILL) ∧ (s.status.getLsbD 4 = true ↔ s.PH = .stream) ∧
    s.status.extractLsb' 5 3 = 0#3 ∧ s.status.extractLsb' 8 8 = s.ERRLEN ∧
    (s.busy = true → s.cmdReady = false ∧ s.dinReady = false) ∧
    (s.busy = false → ∀ i t, exec i s = .next t → t.busy = false)

/-- A step runs the decoded instruction: an accepted command word, or a data beat the channel lets through, is `exec` of what
it decodes to, in the state with that offer taken off the host's list. The same for a word placed by `withFetchWord` (log 10). -/
def Obligations.StepRunsTheDecodedInstruction : Prop :=
  (∀ (s : State) (w : CommandWord) (rest : List HostEvent) (i : Instr), s.nextOffer = some (.cmd w, rest) →
    s.cmdReady = true → decodeCommand w = .ok i → step s = exec i (s.withHost rest)) ∧
  (∀ (s : State) (d : Byte) (rest : List HostEvent), s.nextOffer = some (.data d, rest) →
    step s = exec (.data d) (s.withHost rest)) ∧
  (∀ (s : State) (nbits w : Nat) (i : Instr), decodeTableWord nbits w = some i →
    step (s.withFetchWord nbits w) = exec i ((s.withFetchWord nbits w).withHost s.host))

/-- R81 and R31: a command word is accepted exactly in `IDLE` or `STREAM` with no output outstanding. Until then no beat
happens: `exec` of a command changes nothing, the word stays offered, a running operation goes one position on, and an
outstanding output is taken. That `exec` then changes nothing is log 11, that the output is taken then log 5: model's choices. -/
def Obligations.CommandsWaitUntilReady : Prop :=
  (∀ s : State, s.cmdReady = true ↔ (s.PH = .idle ∨ s.PH = .stream) ∧ s.outQ = []) ∧
  (∀ s : State, s.cmdReady = false →
    (∀ klen ivlen, exec (.init klen ivlen) s = .next s ∧ exec (.init3 klen ivlen) s = .next s) ∧
    exec .xform s = .next s ∧ exec .wipe s = .next s) ∧
  (∀ (s : State) (w : CommandWord) (rest : List HostEvent), s.nextOffer = some (.cmd w, rest) → s.cmdReady = false →
    (s.busy = true → step s = .next s.seqStep ∧ s.seqStep.host = s.host) ∧
    (s.busy = false → step s = .next s.deliver ∧ s.deliver.host = s.host))

/-- `din_ready = 1` only in `STREAM`; in every other phase a data beat does not happen and no state changes, and a host that
offers nothing but data waits for ever (R141). That `din_ready` is 1 always in `STREAM`, where R141 lets it be low while
outputs wait, is the model's choice (log 5). -/
def Obligations.DataOutsideACallIsNotAccepted : Prop :=
  (∀ s : State, s.dinReady = true ↔ s.PH = .stream) ∧
  (∀ (s : State) (d : Byte), s.PH ≠ .stream → exec (.data d) s = .next s) ∧
  (∀ (s : State) (ds : List Byte), s.PH = .idle → s.outQ = [] → s.host = ds.map HostEvent.data → step s = .next s)

/-- Offers are taken in the order they stand (R63); only data bytes outside a call are passed over, and they keep their place
(R141, R212). One list for all channels is the model's choice (log 4). -/
def Obligations.OffersAreTakenInOrder : Prop :=
  ∀ (s : State) (e : HostEvent) (rest : List HostEvent), s.nextOffer = some (e, rest) →
    ∃ (waiting : List Byte) (later : List HostEvent),
      s.host = waiting.map HostEvent.data ++ e :: later ∧ rest = waiting.map HostEvent.data ++ later ∧
      (waiting ≠ [] → s.PH ≠ .stream) ∧ (∀ d, e = .data d → s.PH = .stream)

/-- Every step answers a next state: no fault, no refusal (R50, R171: no other exception exists; log 13). -/
def Obligations.EveryStepAnswers : Prop :=
  ∀ s : State, ∃ t, step s = .next t

/-- Seen at the level of whole commands only `IDLE` and `STREAM` occur (R29): a step from one of them ends in one of them. That
a command is one step is the model's choice (log 3). -/
def Obligations.WholeCommandsSeeIdleAndStream : Prop :=
  ∀ s t : State, step s = .next t → s.busy = false → t.PH = .idle ∨ t.PH = .stream

/-- No output byte is lost, duplicated or reordered (R146, R63): an accepted data beat adds exactly its own byte behind all
earlier ones; `rst` drops the bytes not yet taken and no others (R200); every other step keeps the bytes taken followed by
the bytes outstanding as they are. -/
def Obligations.OutputsKeepTheirOrder : Prop :=
  ∀ s t : State, step s = .next t →
    (∀ d rest, s.nextOffer = some (.data d, rest) → t.dout = s.dout ∧ t.outQ = s.outQ ++ [d ^^^ s.ksByte]) ∧
    (∀ rest, s.nextOffer = some (.rst, rest) → t.dout = s.dout ∧ t.outQ = []) ∧
    ((∀ d rest, s.nextOffer ≠ some (.data d, rest)) → (∀ rest, s.nextOffer ≠ some (.rst, rest)) →
      t.dout ++ t.outQ = s.dout ++ s.outQ)

/-- The host's take (R84, R146): the oldest outstanding byte goes to the end of the bytes taken and nothing else changes; with
none outstanding there is no beat. While an operation runs the take waits in the host's list, the model's choice (log 5). -/
def Obligations.TakeDeliversTheOldestByte : Prop :=
  ∀ (s : State) (rest : List HostEvent), s.nextOffer = some (.take, rest) →
    (s.busy = false → s.outQ = [] → step s = .next { s with host := rest }) ∧
    (∀ q qs, s.busy = false → s.outQ = q :: qs →
      step s = .next { s with host := rest, outQ := qs, dout := s.dout ++ [q] }) ∧
    (s.busy = true → step s = .next s.seqStep ∧ s.seqStep.host = s.host)

/-- The material space is the host's: "the engine never writes it" (R54). A step changes it only by the host's own write, which
sets that byte and no other (R55). That this write does not land while an operation runs is the model's choice, which takes
the host to keep its duty (log 7; R204, U6). -/
def Obligations.OnlyTheHostWritesMaterial : Prop :=
  (∀ s t : State, step s = .next t → t.MAT = s.MAT ∨
    ∃ a v rest, s.nextOffer = some (.mat a v, rest) ∧ s.busy = false) ∧
  (∀ (s : State) (bank : BitVec 1) (idx : BitVec 6) (v : Byte) (rest : List HostEvent),
    s.nextOffer = some (.mat (matAddress bank idx) v, rest) → s.busy = false →
    ∃ t, step s = .next t ∧
      (∀ bank' idx', t.matRead bank' idx' = if bank' = bank ∧ idx' = idx then v else s.matRead bank' idx') ∧
      t = { s with host := rest, MAT := t.MAT })

/-! ## The permutation RAM -/

/-- R53: a write stores its byte and leaves every other entry. -/
def Obligations.WriteStoresOneEntry : Prop :=
  ∀ (s : State) (a v b : Byte), (s.writeP a v).readP b = if b = a then v else s.readP b

/-- R61: a swap exchanges two entries; with equal addresses `P` is unchanged; a permutation stays one. -/
def Obligations.SwapExchangesTwoEntries : Prop :=
  ∀ (s : State) (x y : Byte),
    (s.swapP x y).readP x = s.readP y ∧ (s.swapP x y).readP y = s.readP x ∧
    (∀ a, a ≠ x → a ≠ y → (s.swapP x y).readP a = s.readP a) ∧
    (x = y → (s.swapP x y).readP = s.readP) ∧
    (s.IsPermutation → (s.swapP x y).IsPermutation)

/-- R114: the identity fill overwrites all 256 entries whatever they held, sets `S` to 0, and writes nothing else; no
unspecified byte remains, and nothing of the old contents is left in a canonical memory. -/
def Obligations.FillMakesTheIdentity : Prop :=
  ∀ s : State, (∀ a, s.identityFill.readP a = a) ∧ s.identityFill.S = 0x00#8 ∧ s.identityFill.FullyWritten ∧
    s.identityFill.IsPermutation ∧ s.identityFill = { s with P := s.identityFill.P, S := 0x00#8 } ∧
    (∀ t : State, s.MemoryOk → t.MemoryOk → s.identityFill.P = t.identityFill.P)

/-! ## Key scheduling -/

/-- The pseudocode of R110 from the three reads of a round: `P`, `S`, `M`, `J` after it, and nothing else written. -/
def Obligations.KsaRoundReadsThenSwaps : Prop :=
  ∀ (s : State) (bank : BitVec 1) (L : Byte),
    let n := s.M.extractLsb' 0 8
    let a := s.readP n
    let s1 := s.readP (s.S + a + s.matRead bank s.J)
    let t := s.ksaRound bank L
    (∀ x, t.readP x = if x = s1 then a else if x = n then s.readP s1 else s.readP x) ∧
    t.S = s1 ∧ t.M = s.M + 1#10 ∧ (s.J.toNat + 1 = L.toNat → t.J = 0#6) ∧
    (s.J.toNat + 1 ≠ L.toNat → t.J = s.J + 1#6) ∧
    t.N = s.N ∧ t.PASS = s.PASS ∧ t.KL = s.KL ∧ t.IL = s.IL ∧ t.X = s.X ∧ t.outQ = s.outQ ∧
    SameFlags s t ∧ SameEnvironment s t

/-- R111: after `m` rounds of a pass `J = m mod L`, `M = m` and the position index is `m mod 256`, for every `m` up to 768
and every `L` in 16..64. -/
def Obligations.MaterialIndexCountsModuloLength : Prop :=
  ∀ (s : State) (bank : BitVec 1) (L : Byte) (m : Nat), 16 ≤ L.toNat → L.toNat ≤ 64 → s.M = 0#10 → s.J = 0#6 → m ≤ 768 →
    let t := (fun u : State => u.ksaRound bank L)^[m] s
    t.M.toNat = m ∧ t.J.toNat = m % L.toNat ∧ t.J.toNat < L.toNat ∧ t.ksaPos.toNat = m % 256

/-- R112, R113, R120: a pass over an admitted length is exactly 768 rounds from the `P` and `S` as they stand with `M` and `J`
restarted; over any other length it raises and performs no round and no access. -/
def Obligations.SchedulePassIsCheckThen768Rounds : Prop :=
  ∀ (s : State) (bank : BitVec 1) (L : Byte),
    (16 ≤ L.toNat → L.toNat ≤ 64 → ∃ t, s.ksaPass bank L = .ok t ∧
      t = (fun u : State => u.ksaRound bank L)^[768] { s with M := 0#10, J := 0#6 } ∧
      t.M = 768#10 ∧ t.J.toNat = 768 % L.toNat ∧ t.N = s.N ∧ t.PASS = s.PASS ∧ t.KL = s.KL ∧ t.IL = s.IL ∧
      t.X = s.X ∧ t.outQ = s.outQ ∧ SameFlags s t ∧ SameEnvironment s t) ∧
    (L.toNat < 16 ∨ 64 < L.toNat →
      s.ksaPass bank L = .error { s with ERR := true, ERRLEN := L, PH := .idle })

/-- R121: a schedule pass maps a permutation to a permutation, each round writing `P` only through the swap of `P[n]` and
`P[s1]`; a failed pass does not write `P` at all. -/
def Obligations.SchedulePassKeepsPermutation : Prop :=
  ∀ (s : State) (bank : BitVec 1) (L : Byte),
    (s.ksaRound bank L).P = (s.swapP s.ksaPos (s.ksaNewS bank)).P ∧
    (∀ t, s.IsPermutation → s.ksaPass bank L = .ok t → t.IsPermutation) ∧
    (∀ t, s.ksaPass bank L = .error t → t.P = s.P)

/-- `INIT` and `INIT3` complete on every admitted pair of lengths, for all material and from every state in which a command
is accepted: valid, no error, a permutation with no unspecified byte, the sequencer's registers as R30 says, and nothing
outside the initialization's registers changed (R116, R117, R119). -/
def Obligations.InitializationCompletes : Prop :=
  ∀ (s : State) (klen ivlen : Byte), s.cmdReady = true → AdmittedKey klen → AdmittedIv ivlen →
    (∃ t, exec (.init klen ivlen) s = .next t ∧ t.V = true ∧ t.ERR = false ∧ t.ERRLEN = 0x00#8 ∧ t.ILL = false ∧
      t.PH = .idle ∧ t.status = 0x0002#16 ∧ t.IsPermutation ∧ t.FullyWritten ∧ t.KL = klen ∧ t.IL = ivlen ∧ t.X = false ∧
      t.M = 768#10 ∧ t.PASS = (if ivlen = 0x00#8 then 0#2 else 1#2) ∧
      t.J.toNat = 768 % (if ivlen = 0x00#8 then klen.toNat else ivlen.toNat) ∧
      t.N = s.N ∧ t.outQ = s.outQ ∧ t.illSeen = s.illSeen ∧ SameEnvironment s t) ∧
    (∃ t, exec (.init3 klen ivlen) s = .next t ∧ t.V = true ∧ t.ERR = false ∧ t.ERRLEN = 0x00#8 ∧ t.ILL = false ∧
      t.PH = .idle ∧ t.status = 0x0002#16 ∧ t.IsPermutation ∧ t.FullyWritten ∧ t.KL = klen ∧ t.IL = ivlen ∧ t.X = true ∧
      t.M = 768#10 ∧ t.PASS = 2#2 ∧ t.J.toNat = 768 % klen.toNat ∧
      t.N = s.N ∧ t.outQ = s.outQ ∧ t.illSeen = s.illSeen ∧ SameEnvironment s t)

/-- E1 from a bad key length, whatever the IV length: `ERRLEN` is the key length, no round ran (R171, R172, R174). Nothing is
said of `P` and `S`, which the document calls undefined here (U2). -/
def Obligations.BadKeyLengthRaises : Prop :=
  ∀ (s : State) (klen ivlen : Byte), s.cmdReady = true → (klen.toNat < 16 ∨ 64 < klen.toNat) →
    (∃ t, exec (.init klen ivlen) s = .next t ∧ t.V = false ∧ t.ERR = true ∧ t.ERRLEN = klen ∧ t.ILL = false ∧
      t.PH = .idle ∧ t.M = 0#10 ∧ t.J = 0#6 ∧ t.PASS = 0#2 ∧ t.KL = klen ∧ t.IL = ivlen ∧ t.X = false ∧
      t.N = s.N ∧ t.outQ = s.outQ ∧ t.illSeen = s.illSeen ∧ SameEnvironment s t) ∧
    (∃ t, exec (.init3 klen ivlen) s = .next t ∧ t.V = false ∧ t.ERR = true ∧ t.ERRLEN = klen ∧ t.ILL = false ∧
      t.PH = .idle ∧ t.M = 0#10 ∧ t.J = 0#6 ∧ t.PASS = 0#2 ∧ t.KL = klen ∧ t.IL = ivlen ∧ t.X = true ∧
      t.N = s.N ∧ t.outQ = s.outQ ∧ t.illSeen = s.illSeen ∧ SameEnvironment s t)

/-- E1 from a bad IV length behind an admitted key: `ERRLEN` is the IV length, the key pass ran whole (R171, R172, R175). -/
def Obligations.BadIvLengthRaises : Prop :=
  ∀ (s : State) (klen ivlen : Byte), s.cmdReady = true → AdmittedKey klen → ivlen ≠ 0x00#8 →
    (ivlen.toNat < 16 ∨ 64 < ivlen.toNat) →
    (∃ t, exec (.init klen ivlen) s = .next t ∧ t.V = false ∧ t.ERR = true ∧ t.ERRLEN = ivlen ∧ t.ILL = false ∧
      t.PH = .idle ∧ t.M = 768#10 ∧ t.J.toNat = 768 % klen.toNat ∧ t.PASS = 1#2 ∧ t.KL = klen ∧ t.IL = ivlen ∧
      t.X = false ∧ t.N = s.N ∧ t.outQ = s.outQ ∧ t.illSeen = s.illSeen ∧ SameEnvironment s t) ∧
    (∃ t, exec (.init3 klen ivlen) s = .next t ∧ t.V = false ∧ t.ERR = true ∧ t.ERRLEN = ivlen ∧ t.ILL = false ∧
      t.PH = .idle ∧ t.M = 768#10 ∧ t.J.toNat = 768 % klen.toNat ∧ t.PASS = 1#2 ∧ t.KL = klen ∧ t.IL = ivlen ∧
      t.X = true ∧ t.N = s.N ∧ t.outQ = s.outQ ∧ t.illSeen = s.illSeen ∧ SameEnvironment s t)

/-- R123: the second key pass cannot raise; an `INIT3` fails exactly when the same `INIT` would, with the same `ERRLEN`; `KL`
is what was latched at acceptance. -/
def Obligations.Init3FailsExactlyWhenInitDoes : Prop :=
  ∀ (s : State) (klen ivlen : Byte), s.cmdReady = true →
    ∃ t t', exec (.init klen ivlen) s = .next t ∧ exec (.init3 klen ivlen) s = .next t' ∧
      t'.ERR = t.ERR ∧ t'.ERRLEN = t.ERRLEN ∧ t'.V = t.V ∧ t'.KL = klen ∧ (t'.ERR = true → t'.PASS ≠ 2#2)

/-- `INIT` implements the document's standard protocol on the material in the banks: the same permutation and running state,
or the same rejected length (R116, R111, R120). -/
def Obligations.InitImplementsTheStandardProtocol : Prop :=
  ∀ (s : State) (klen ivlen : Byte), s.cmdReady = true →
    ∃ t, exec (.init klen ivlen) s = .next t ∧
      match Cipher.standard (s.material 0#1 klen) (s.material 1#1 ivlen) with
      | .ok c => t.V = true ∧ t.ERR = false ∧ t.cipher = c
      | .error len => t.V = false ∧ t.ERR = true ∧ t.ERRLEN.toNat = len

/-- `INIT3` implements the document's strengthened protocol (R117, R120). -/
def Obligations.Init3ImplementsTheStrengthenedProtocol : Prop :=
  ∀ (s : State) (klen ivlen : Byte), s.cmdReady = true →
    ∃ t, exec (.init3 klen ivlen) s = .next t ∧
      match Cipher.strengthened (s.material 0#1 klen) (s.material 1#1 ivlen) with
      | .ok c => t.V = true ∧ t.ERR = false ∧ t.cipher = c
      | .error len => t.V = false ∧ t.ERR = true ∧ t.ERRLEN.toNat = len

/-- R122: with `B = 0` the contents of bank 1 cannot influence anything, and no position of the command selects bank 1. -/
def Obligations.IvBankIsNotReadWithoutAnIv : Prop :=
  ∀ (s : State) (klen : Byte) (banks : Memory), s.cmdReady = true →
    (∀ idx, ({ s with MAT := banks } : State).matRead 0#1 idx = s.matRead 0#1 idx) →
    (∃ t, exec (.init klen 0x00#8) s = .next t ∧
      exec (.init klen 0x00#8) { s with MAT := banks } = .next { t with MAT := banks }) ∧
    (∃ t, exec (.init3 klen 0x00#8) s = .next t ∧
      exec (.init3 klen 0x00#8) { s with MAT := banks } = .next { t with MAT := banks }) ∧
    (∀ (x : Bool) (k : Nat), passBank (State.seqRun k (s.acceptInit x klen 0x00#8)).PASS = 0#1)

/-- R55: the engine reads only material bytes below the lengths in the command word: two engines whose banks agree there end
alike. -/
def Obligations.MaterialBeyondTheLengthIsNotRead : Prop :=
  ∀ (s : State) (klen ivlen : Byte) (banks : Memory), s.cmdReady = true →
    (∀ idx : BitVec 6, idx.toNat < klen.toNat → ({ s with MAT := banks } : State).matRead 0#1 idx = s.matRead 0#1 idx) →
    (∀ idx : BitVec 6, idx.toNat < ivlen.toNat → ({ s with MAT := banks } : State).matRead 1#1 idx = s.matRead 1#1 idx) →
    (∃ t, exec (.init klen ivlen) s = .next t ∧
      exec (.init klen ivlen) { s with MAT := banks } = .next { t with MAT := banks }) ∧
    (∃ t, exec (.init3 klen ivlen) s = .next t ∧
      exec (.init3 klen ivlen) { s with MAT := banks } = .next { t with MAT := banks })

/-- The sequencer run one position at a time from the acceptance of an initialization or a wipe ends, within the bound, in
exactly the state the whole command gives (D1). What one position is, is the model's choice (log 3). -/
def Obligations.SequencerRunIsTheWholeCommand : Prop :=
  (∀ (s : State) (x : Bool) (klen ivlen : Byte),
    State.seqRun seqBound (s.acceptInit x klen ivlen) = s.initCommand x klen ivlen) ∧
  (∀ s : State, State.seqRun seqBound s.acceptWipe = s.acceptWipe.zeroize)

/-- R216: every operation ends: from any position with its counters in range the sequencer is idle within the bound. -/
def Obligations.EveryOperationEnds : Prop :=
  ∀ s : State, s.CountersOk → (State.seqRun seqBound s).busy = false

/-- A reset in the middle of an operation, whatever position it has reached, leaves what a reset before its command would
have left (R202; the form of `P` after it is log 1, what `rst` leaves alone log 12). -/
def Obligations.ResetAbandonsAnOperation : Prop :=
  ∀ (s : State) (k : Nat),
    (∀ (x : Bool) (klen ivlen : Byte), (State.seqRun k (s.acceptInit x klen ivlen)).hostReset = s.hostReset) ∧
    (State.seqRun k s.acceptWipe).hostReset = s.hostReset

/-! ## The keystream -/

/-- R140: `XFORM` on a valid engine opens a call: `N` is 0, `STRM` is shown, and `P`, `S`, `V`, `ERR`, `ERRLEN` and everything
else keep their values. While `V = 0` it is refused: `ILL` is 1 and no call is open. -/
def Obligations.XformOpensACall : Prop :=
  ∀ s : State, s.cmdReady = true →
    (s.V = true → exec .xform s = .next { s with N := 0x00#8, PH := .stream, ILL := false }) ∧
    (s.V = false → ∃ t, exec .xform s = .next t ∧ t = { s with PH := .idle, ILL := true, illSeen := t.illSeen })

/-- R173: `Illegal`, from a reserved word or from `XFORM` while `V = 0`, sets `ILL` and changes nothing else once acceptance has
closed any open call (nothing is said of the model's own `illSeen`); `ILL` stays 1 until the next command word or a reset. -/
def Obligations.IllegalChangesOneFlag : Prop :=
  (∀ s : State, s.cmdReady = true → s.V = false →
    ∃ t, exec .xform s = .next t ∧ t = { s with PH := .idle, ILL := true, illSeen := t.illSeen }) ∧
  (∀ (s : State) (w : CommandWord) (rest : List HostEvent) (r : Reserved), s.nextOffer = some (.cmd w, rest) →
    s.cmdReady = true → decodeCommand w = .error r →
    ∃ t, step s = .next t ∧ t = { s with host := rest, PH := .idle, ILL := true, illSeen := t.illSeen }) ∧
  (∀ s t : State, step s = .next t → s.ILL = true → t.ILL = false →
    (∃ w rest, s.nextOffer = some (.cmd w, rest) ∧ s.cmdReady = true) ∨ (∃ rest, s.nextOffer = some (.rst, rest)))

/-- The pseudocode of R142 from the five reads of a step: one output byte, the new `S`, `N + 1`, the swap of `P[n]` and
`P[s1]`, every other byte of `P` and every other register unchanged. -/
def Obligations.DataBeatIsOneKeystreamStep : Prop :=
  ∀ (s : State) (d : Byte), s.PH = .stream →
    let a := s.readP s.N
    let s1 := s.readP (s.S + a)
    let b := s.readP s1
    let z := s.readP (s.readP b + 1#8)
    ∃ t, exec (.data d) s = .next t ∧
      t.S = s1 ∧ t.N = s.N + 1#8 ∧ t.outQ = s.outQ ++ [d ^^^ z] ∧
      (∀ x, t.readP x = if x = s1 then a else if x = s.N then b else s.readP x) ∧
      SameFlags s t ∧ SameSequencer s t ∧ SameEnvironment s t

/-- R142, corner case 6: neither the keystream byte nor the state after a step depends on the data. -/
def Obligations.KeystreamIsIndependentOfTheData : Prop :=
  ∀ (s : State) (ds ds' : List Byte), s.PH = .stream → ds.length = ds'.length →
    ∃ (t t' : State) (zs : List Byte), zs.length = ds.length ∧
      execAll (ds.map Instr.data) s = .next t ∧ execAll (ds'.map Instr.data) s = .next t' ∧
      t.outQ = s.outQ ++ List.zipWith (· ^^^ ·) ds zs ∧ t'.outQ = s.outQ ++ List.zipWith (· ^^^ ·) ds' zs ∧
      t' = { t with outQ := t'.outQ }

/-- R147: two engines in the same cipher state with a call open at the same position: fed with the first one's outputs, the
second one returns the first one's inputs. -/
def Obligations.DecryptionIsEncryption : Prop :=
  ∀ (s u : State) (ds : List Byte), s.PH = .stream → u.PH = .stream → u.cipher = s.cipher → u.N = s.N →
    ∃ (t v : State) (cs : List Byte), cs.length = ds.length ∧
      execAll (ds.map Instr.data) s = .next t ∧ t.outQ = s.outQ ++ cs ∧
      execAll (cs.map Instr.data) u = .next v ∧ v.outQ = u.outQ ++ ds ∧ v.cipher = t.cipher ∧ v.N = t.N

/-- `XFORM` and the data beats of a call are the document's `transform(state, source)`: the outputs, the state left for the
next call, and `N` the number of beats mod 256 (R140, R142, R144, R21). -/
def Obligations.CallImplementsTheTransform : Prop :=
  ∀ (s : State) (source : List Byte), s.cmdReady = true → s.V = true →
    ∃ t, execAll (.xform :: source.map Instr.data) s = .next t ∧
      t.outQ = (s.cipher.transform 0 source).1 ∧ t.cipher = (s.cipher.transform 0 source).2 ∧
      t.N.toNat = source.length % 256 ∧ t.PH = .stream ∧ t.V = true

/-- A message cut into two calls at a multiple of 256 bytes, the outputs of the first call taken in between, gives byte
for byte the output of one call, and leaves the same cipher state and index (R145). -/
def Obligations.CutsAtMultiplesOf256AreInvisible : Prop :=
  ∀ (s : State) (first second : List Byte), s.cmdReady = true → s.V = true → first.length % 256 = 0 →
    ∃ t u v : State, execAll (.xform :: first.map Instr.data) s = .next t ∧
      execAll (.xform :: second.map Instr.data) t.allTaken = .next u ∧
      execAll (.xform :: (first ++ second).map Instr.data) s = .next v ∧
      t.outQ ++ u.outQ = v.outQ ∧ u.cipher = v.cipher ∧ u.N = v.N

/-- R151: `XFORM` with no data beat changes `N` to 0 and nothing else of `P`, `S`, `V`; a second `XFORM` changes nothing. -/
def Obligations.EmptyCallChangesNothing : Prop :=
  ∀ s : State, s.cmdReady = true → s.V = true →
    ∃ t, execAll [.xform] s = .next t ∧ t.N = 0x00#8 ∧ t.P = s.P ∧ t.pEpoch = s.pEpoch ∧ t.S = s.S ∧ t.V = s.V ∧
      t.outQ = [] ∧ execAll [.xform, .xform] s = .next t

/-- R149: a keystream step writes `P` only through the swap of `P[n]` and `P[s1]`, and `P` is a permutation throughout every
open call. -/
def Obligations.OpenCallKeepsPermutation : Prop :=
  (∀ (s : State) (d : Byte), (s.ksStep d).P = (s.swapP s.N s.ksNewS).P ∧
    (s.IsPermutation → (s.ksStep d).IsPermutation)) ∧
  (∀ (s : State) (ds : List Byte), s.Inv → s.PH = .stream →
    ∃ t, execAll (ds.map Instr.data) s = .next t ∧ t.PH = .stream ∧ t.IsPermutation)

/-! ## Wipe -/

/-- `WIPE` completes from every state in which a command is accepted: `P`, `S`, `N` zero, the flags and `ERRLEN` clear,
`STATUS = 0x0000`; the sequencer's registers, the material and the outputs are not written (R160). -/
def Obligations.WipeZeroesTheCipherState : Prop :=
  ∀ s : State, s.cmdReady = true →
    ∃ t, exec .wipe s = .next t ∧ (∀ a, t.readP a = 0x00#8) ∧ t.FullyWritten ∧ t.S = 0x00#8 ∧ t.N = 0x00#8 ∧
      t.V = false ∧ t.ERR = false ∧ t.ILL = false ∧ t.ERRLEN = 0x00#8 ∧ t.PH = .idle ∧ t.status = 0x0000#16 ∧
      t.outQ = s.outQ ∧ t.illSeen = s.illSeen ∧ SameSequencer s t ∧ SameEnvironment s t

/-- R161: `WIPE` applied to the state it produces gives that state again. -/
def Obligations.WipeIsIdempotent : Prop :=
  ∀ s : State, s.MemoryOk → s.cmdReady = true →
    ∃ t, exec .wipe s = .next t ∧ exec .wipe t = .next t ∧ (∀ a, t.readP a = 0x00#8) ∧ t.S = 0x00#8 ∧ t.N = 0x00#8 ∧
      t.V = false ∧ t.ERR = false ∧ t.ILL = false ∧ t.ERRLEN = 0x00#8 ∧ t.PH = .idle

/-! ## Flags, lifecycle and the whole machine -/

/-- R24: `V` is set only by an initialization that runs to completion, and cleared only by the acceptance of an initialization,
by a wipe or by reset; each of the three clears it. -/
def Obligations.ValidIsSetOnlyByInitialization : Prop :=
  (∀ s t : State, step s = .next t → s.V = false → t.V = true →
    (s.PH = .ksa ∧ s.M = 768#10 ∧ s.nextPass = none) ∨
    (∃ w rest klen ivlen, s.nextOffer = some (.cmd w, rest) ∧ s.cmdReady = true ∧
      (decodeCommand w = .ok (.init klen ivlen) ∨ decodeCommand w = .ok (.init3 klen ivlen)) ∧
      AdmittedKey klen ∧ AdmittedIv ivlen)) ∧
  (∀ s t : State, step s = .next t → s.V = true → t.V = false →
    (∃ rest, s.nextOffer = some (.rst, rest)) ∨
    (∃ w rest, s.nextOffer = some (.cmd w, rest) ∧ s.cmdReady = true ∧
      (decodeCommand w = .ok .wipe ∨ ∃ klen ivlen,
        decodeCommand w = .ok (.init klen ivlen) ∨ decodeCommand w = .ok (.init3 klen ivlen)))) ∧
  (∀ (s : State) (x : Bool) (klen ivlen : Byte), (s.acceptInit x klen ivlen).V = false) ∧
  (∀ s : State, s.acceptWipe.zeroize.V = false ∧ s.hostReset.V = false)

/-- R26: every accepted command word writes `ILL`: 1 when it is reserved or an `XFORM` while `V = 0`, 0 otherwise; reset clears
it; no other step changes it. -/
def Obligations.IllDescribesTheLastCommandWord : Prop :=
  (∀ (s : State) (w : CommandWord) (rest : List HostEvent), s.nextOffer = some (.cmd w, rest) → s.cmdReady = true →
    ∃ t, step s = .next t ∧
      (t.ILL = true ↔ (∃ r, decodeCommand w = .error r) ∨ (decodeCommand w = .ok .xform ∧ s.V = false))) ∧
  (∀ (s : State) (rest : List HostEvent), s.nextOffer = some (.rst, rest) → ∃ t, step s = .next t ∧ t.ILL = false) ∧
  (∀ s t : State, step s = .next t → (∀ rest, s.nextOffer ≠ some (.rst, rest)) →
    (∀ w rest, s.nextOffer = some (.cmd w, rest) → s.cmdReady = false) → t.ILL = s.ILL)

/-- R25, R27: an initialization sets `ERR` exactly when a pass rejects its length, with `ERRLEN` that length; its acceptance, a
wipe and reset clear both; `XFORM`, `DATA` and refused words leave both unchanged. -/
def Obligations.ErrReportsTheRejectedLength : Prop :=
  (∀ (s : State) (klen ivlen : Byte), s.cmdReady = true → ∃ t t', exec (.init klen ivlen) s = .next t ∧
    exec (.init3 klen ivlen) s = .next t' ∧
    (t.ERR = true ↔ ¬ (AdmittedKey klen ∧ AdmittedIv ivlen)) ∧ (t'.ERR = true ↔ ¬ (AdmittedKey klen ∧ AdmittedIv ivlen)) ∧
    (¬ AdmittedKey klen → t.ERRLEN = klen ∧ t'.ERRLEN = klen) ∧
    (AdmittedKey klen → ¬ AdmittedIv ivlen → t.ERRLEN = ivlen ∧ t'.ERRLEN = ivlen) ∧
    (AdmittedKey klen → AdmittedIv ivlen → t.ERRLEN = 0x00#8 ∧ t'.ERRLEN = 0x00#8)) ∧
  (∀ (s : State) (x : Bool) (klen ivlen : Byte),
    (s.acceptInit x klen ivlen).ERR = false ∧ (s.acceptInit x klen ivlen).ERRLEN = 0x00#8) ∧
  (∀ s : State, s.acceptWipe.zeroize.ERR = false ∧ s.acceptWipe.zeroize.ERRLEN = 0x00#8 ∧ s.hostReset.ERR = false ∧
    s.hostReset.ERRLEN = 0x00#8) ∧
  (∀ s t : State, (∃ d, exec (.data d) s = .next t) ∨ exec .xform s = .next t ∨ t = s.refuseWord →
    t.ERR = s.ERR ∧ t.ERRLEN = s.ERRLEN)

/-- R180: the three conditions and the transition table of the lifecycle, with `PH` and with `ILL` (R26), from a sound state in
which a command can be accepted. -/
def Obligations.LifecycleTransitions : Prop :=
  ∀ s : State, s.Inv → s.cmdReady = true →
    (s.lifecycle = .invalid → s.V = false ∧ s.PH = .idle) ∧
    (s.lifecycle = .ready → s.V = true ∧ s.PH = .idle ∧ s.IsPermutation) ∧
    (s.lifecycle = .streaming → s.V = true ∧ s.PH = .stream ∧ s.IsPermutation) ∧
    (∀ klen ivlen, ∃ t t', exec (.init klen ivlen) s = .next t ∧ exec (.init3 klen ivlen) s = .next t' ∧
      t.PH = .idle ∧ t'.PH = .idle ∧ t.ILL = false ∧ t'.ILL = false ∧
      (AdmittedKey klen ∧ AdmittedIv ivlen → t.lifecycle = .ready ∧ t'.lifecycle = .ready ∧
        t.IsPermutation ∧ t'.IsPermutation) ∧
      (¬ (AdmittedKey klen ∧ AdmittedIv ivlen) → t.lifecycle = .invalid ∧ t.ERR = true ∧
        t'.lifecycle = .invalid ∧ t'.ERR = true)) ∧
    (∃ t, exec .xform s = .next t ∧
      (s.lifecycle = .invalid → t.lifecycle = .invalid ∧ t.PH = .idle ∧ t.ILL = true) ∧
      (s.lifecycle ≠ .invalid → t.lifecycle = .streaming ∧ t.PH = .stream ∧ t.N = 0x00#8 ∧ t.IsPermutation ∧
        t.ILL = false)) ∧
    (∀ d, ∃ t, exec (.data d) s = .next t ∧ t.ILL = s.ILL ∧
      (s.lifecycle = .streaming → t.lifecycle = .streaming ∧ t.PH = .stream ∧ t.N = s.N + 1#8 ∧ t.IsPermutation) ∧
      (s.lifecycle ≠ .streaming → t = s)) ∧
    (∃ t, exec .wipe s = .next t ∧ t.lifecycle = .invalid ∧ t.PH = .idle ∧ t.ILL = false) ∧
    (s.refuseWord.ILL = true ∧ s.refuseWord.PH = .idle ∧
      s.refuseWord.lifecycle = if s.lifecycle = .invalid then .invalid else .ready) ∧
    (s.hostReset.lifecycle = .invalid ∧ s.hostReset.PH = .idle ∧ s.hostReset.ILL = false)

/-- The model's own sticky mark (log 8, U1, U8): it records every refused command word, and nothing clears it. -/
def Obligations.StickyMarkRecordsEveryRefusal : Prop :=
  ∀ s t : State, step s = .next t →
    (t.illSeen = true ↔ s.illSeen = true ∨ ∃ w rest, s.nextOffer = some (.cmd w, rest) ∧ s.cmdReady = true ∧
      ((∃ r, decodeCommand w = .error r) ∨ (decodeCommand w = .ok .xform ∧ s.V = false)))

/-- The reset state is sound. -/
def Obligations.ResetStateIsSound : Prop := State.reset.Inv

/-- The four flag invariants of R36, with what they rest on (canonical memories, counters in range, the permutation written
whole), are kept by every step from every sound state. -/
def Obligations.EveryStepKeepsTheStateSound : Prop :=
  ∀ s t : State, s.Inv → step s = .next t → t.Inv

/-- What an invalid engine is left with in `P`, `S` and `N` (reset contents, the leftovers of a failed initialization), and what
the sequencer's registers hold on any engine with no operation running, valid or not, is unobservable (R175, R201, R30): two
engines that differ only there show the host the same and stay indistinguishable under every step. -/
def Obligations.LeftoversNeverReachAPort : Prop :=
  ∀ s u : State, s.Inv → u.Inv → Indistinguishable s u →
    s.visible = u.visible ∧ ∀ t, step s = .next t → ∃ v, step u = .next v ∧ Indistinguishable t v
end

