-- ==== Sys2Proof/Laws/Decode.lean ====
section
/-! SUPPORT. Words and their fields (R82), and the decoder read through the fields (R86, R87). -/

namespace Sys2Proof

theorem fieldsOf_wordOf (f : CommandFields) : fieldsOf (wordOf f) = f := by
  obtain ⟨op, rsv, b, a⟩ := f
  simp only [fieldsOf, wordOf, CommandFields.mk.injEq]
  refine ⟨?_, ?_, ?_, ?_⟩ <;> apply BitVec.eq_of_getLsbD_eq <;> intro i hi <;> interval_cases i <;> simp

theorem wordOf_fieldsOf (w : CommandWord) : wordOf (fieldsOf w) = w := by
  apply BitVec.eq_of_getLsbD_eq
  intro i hi
  simp only [wordOf, fieldsOf]
  interval_cases i <;> simp

theorem fieldsOf_inj {w w' : CommandWord} : fieldsOf w = fieldsOf w' ↔ w = w' :=
  ⟨fun h => by rw [← wordOf_fieldsOf w, h, wordOf_fieldsOf], fun h => h ▸ rfl⟩

/-- The mask 0xFFFF0000 of format `L2` keeps `OP` and `RSV` (R86). -/
theorem and_maskL2 (w : CommandWord) :
    w &&& 0xFFFF0000#32 = wordOf { fieldsOf w with b := 0x00#8, a := 0x00#8 } := by
  apply BitVec.eq_of_getLsbD_eq
  intro i hi
  simp only [wordOf, fieldsOf]
  interval_cases i <;> simp

theorem and_maskL2_eq (w : CommandWord) (op : Byte) :
    w &&& 0xFFFF0000#32 = wordOf { op := op, rsv := 0x00#8, b := 0x00#8, a := 0x00#8 } ↔
      (fieldsOf w).op = op ∧ (fieldsOf w).rsv = 0x00#8 := by
  rw [and_maskL2, ← fieldsOf_inj, fieldsOf_wordOf, fieldsOf_wordOf]
  simp

theorem and_maskZ_eq (w : CommandWord) (op : Byte) :
    w &&& 0xFFFFFFFF#32 = wordOf { op := op, rsv := 0x00#8, b := 0x00#8, a := 0x00#8 } ↔
      fieldsOf w = { op := op, rsv := 0x00#8, b := 0x00#8, a := 0x00#8 } := by
  rw [show (0xFFFFFFFF#32 : CommandWord) = BitVec.allOnes 32 by decide, BitVec.and_allOnes, ← fieldsOf_inj,
    fieldsOf_wordOf]

/-- The decoder on the fields: each row of R86 by its fixed fields, everything else by its class of R87. -/
theorem decodeCommand_eq (w : CommandWord) :
    decodeCommand w =
      if (fieldsOf w).op = 0x01#8 ∧ (fieldsOf w).rsv = 0x00#8 then .ok (.init (fieldsOf w).a (fieldsOf w).b)
      else if (fieldsOf w).op = 0x02#8 ∧ (fieldsOf w).rsv = 0x00#8 then .ok (.init3 (fieldsOf w).a (fieldsOf w).b)
      else if fieldsOf w = { op := 0x03#8, rsv := 0x00#8, b := 0x00#8, a := 0x00#8 } then .ok .xform
      else if fieldsOf w = { op := 0x04#8, rsv := 0x00#8, b := 0x00#8, a := 0x00#8 } then .ok .wipe
      else .error (reservedClass (fieldsOf w).op) := by
  rw [decodeCommand]
  refine if_congr (and_maskL2_eq w 0x01#8) rfl (if_congr (and_maskL2_eq w 0x02#8) rfl
    (if_congr (and_maskZ_eq w 0x03#8) rfl (if_congr (and_maskZ_eq w 0x04#8) rfl rfl)))

/-- A decoded command word is never a data beat: the two channels do not mix. -/
theorem decodeCommand_ne_data {w : CommandWord} {d : Byte} : decodeCommand w ≠ .ok (.data d) := by
  rw [decodeCommand]
  split_ifs <;> simp

/-- The words that decode are exactly those whose fields are well formed (R82, R83, R87). -/
theorem decodeCommand_isOk_iff (w : CommandWord) :
    (∃ i, decodeCommand w = .ok i) ↔ (fieldsOf w).wellFormed = true := by
  rw [decodeCommand_eq]
  generalize fieldsOf w = f
  obtain ⟨op, rsv, b, a⟩ := f
  simp only [CommandFields.wellFormed, CommandFields.opKnown, CommandFields.rsvZero, CommandFields.operandsFit,
    CommandFields.mk.injEq]
  by_cases h1 : op = 0x01#8
  · subst h1; by_cases hr : rsv = 0x00#8 <;> simp [hr]
  · by_cases h2 : op = 0x02#8
    · subst h2; by_cases hr : rsv = 0x00#8 <;> simp [hr]
    · by_cases h3 : op = 0x03#8
      · subst h3; by_cases hr : rsv = 0x00#8 <;> by_cases ha : a = 0x00#8 <;> by_cases hb : b = 0x00#8 <;>
          simp [hr, ha, hb]
      · by_cases h4 : op = 0x04#8
        · subst h4; by_cases hr : rsv = 0x00#8 <;> by_cases ha : a = 0x00#8 <;> by_cases hb : b = 0x00#8 <;>
            simp [hr, ha, hb]
        · simp [h1, h2, h3, h4]

/-- The low 24 bits are the fields `RSV`, `B` and `A` (R82). -/
theorem low24_eq_zero_iff (w : CommandWord) :
    w.extractLsb' 0 24 = 0#24 ↔ (fieldsOf w).rsv = 0x00#8 ∧ (fieldsOf w).b = 0x00#8 ∧ (fieldsOf w).a = 0x00#8 := by
  constructor
  · intro h
    have bit : ∀ i, i < 24 → w.getLsbD i = false := fun i hi => by
      have := congrArg (fun v : BitVec 24 => v.getLsbD i) h
      simpa [hi] using this
    refine ⟨?_, ?_, ?_⟩ <;> apply BitVec.eq_of_getLsbD_eq <;> intro i hi <;> simp [fieldsOf, hi] <;> apply bit <;> omega
  · rintro ⟨rsv, b, a⟩
    apply BitVec.eq_of_getLsbD_eq
    intro i hi
    have rsv := fun i => congrArg (fun v : BitVec 8 => v.getLsbD i) rsv
    have b := fun i => congrArg (fun v : BitVec 8 => v.getLsbD i) b
    have a := fun i => congrArg (fun v : BitVec 8 => v.getLsbD i) a
    simp only [fieldsOf, BitVec.getLsbD_extractLsb', BitVec.getLsbD_zero, Bool.and_eq_false_imp, decide_eq_true_eq] at rsv b a
    simp only [BitVec.getLsbD_extractLsb', hi, decide_true, Bool.true_and, Nat.zero_add, BitVec.getLsbD_zero]
    rcases (by omega : i < 8 ∨ (8 ≤ i ∧ i < 16) ∨ 16 ≤ i) with h | h | h
    · simpa using a i h
    · have := b (i - 8) (by omega)
      rwa [show 8 + (i - 8) = i by omega] at this
    · have := rsv (i - 16) (by omega)
      rwa [show 16 + (i - 16) = i by omega] at this

end Sys2Proof
end

