-- ==== Sys2Proof/Laws/State.lean ====
section
/-! SUPPORT. One lemma per field per update of the state, true by `rfl` (so that no later proof unfolds a record update). The
proofs are written `(rfl)`, which keeps simp from treating the lemmas as definitional casts: the kernel then never compares
two whole states, one of which may be the result of 768 rounds. -/

namespace Sys2Proof.Machine

/-! ### writeP -/

@[simp] theorem State.writeP_P (s : State) (a v : Byte) : (s.writeP a v).P = s.P.write a.toNat v := (rfl)
@[simp] theorem State.writeP_pEpoch (s : State) (a v : Byte) : (s.writeP a v).pEpoch = s.pEpoch := (rfl)
@[simp] theorem State.writeP_S (s : State) (a v : Byte) : (s.writeP a v).S = s.S := (rfl)
@[simp] theorem State.writeP_N (s : State) (a v : Byte) : (s.writeP a v).N = s.N := (rfl)
@[simp] theorem State.writeP_M (s : State) (a v : Byte) : (s.writeP a v).M = s.M := (rfl)
@[simp] theorem State.writeP_J (s : State) (a v : Byte) : (s.writeP a v).J = s.J := (rfl)
@[simp] theorem State.writeP_PASS (s : State) (a v : Byte) : (s.writeP a v).PASS = s.PASS := (rfl)
@[simp] theorem State.writeP_KL (s : State) (a v : Byte) : (s.writeP a v).KL = s.KL := (rfl)
@[simp] theorem State.writeP_IL (s : State) (a v : Byte) : (s.writeP a v).IL = s.IL := (rfl)
@[simp] theorem State.writeP_X (s : State) (a v : Byte) : (s.writeP a v).X = s.X := (rfl)
@[simp] theorem State.writeP_PH (s : State) (a v : Byte) : (s.writeP a v).PH = s.PH := (rfl)
@[simp] theorem State.writeP_V (s : State) (a v : Byte) : (s.writeP a v).V = s.V := (rfl)
@[simp] theorem State.writeP_ERR (s : State) (a v : Byte) : (s.writeP a v).ERR = s.ERR := (rfl)
@[simp] theorem State.writeP_ERRLEN (s : State) (a v : Byte) : (s.writeP a v).ERRLEN = s.ERRLEN := (rfl)
@[simp] theorem State.writeP_ILL (s : State) (a v : Byte) : (s.writeP a v).ILL = s.ILL := (rfl)
@[simp] theorem State.writeP_MAT (s : State) (a v : Byte) : (s.writeP a v).MAT = s.MAT := (rfl)
@[simp] theorem State.writeP_host (s : State) (a v : Byte) : (s.writeP a v).host = s.host := (rfl)
@[simp] theorem State.writeP_outQ (s : State) (a v : Byte) : (s.writeP a v).outQ = s.outQ := (rfl)
@[simp] theorem State.writeP_dout (s : State) (a v : Byte) : (s.writeP a v).dout = s.dout := (rfl)
@[simp] theorem State.writeP_illSeen (s : State) (a v : Byte) : (s.writeP a v).illSeen = s.illSeen := (rfl)

/-! ### setMat -/

@[simp] theorem State.setMat_P (s : State) (a : MatAddr) (v : Byte) : (s.setMat a v).P = s.P := (rfl)
@[simp] theorem State.setMat_pEpoch (s : State) (a : MatAddr) (v : Byte) : (s.setMat a v).pEpoch = s.pEpoch := (rfl)
@[simp] theorem State.setMat_S (s : State) (a : MatAddr) (v : Byte) : (s.setMat a v).S = s.S := (rfl)
@[simp] theorem State.setMat_N (s : State) (a : MatAddr) (v : Byte) : (s.setMat a v).N = s.N := (rfl)
@[simp] theorem State.setMat_M (s : State) (a : MatAddr) (v : Byte) : (s.setMat a v).M = s.M := (rfl)
@[simp] theorem State.setMat_J (s : State) (a : MatAddr) (v : Byte) : (s.setMat a v).J = s.J := (rfl)
@[simp] theorem State.setMat_PASS (s : State) (a : MatAddr) (v : Byte) : (s.setMat a v).PASS = s.PASS := (rfl)
@[simp] theorem State.setMat_KL (s : State) (a : MatAddr) (v : Byte) : (s.setMat a v).KL = s.KL := (rfl)
@[simp] theorem State.setMat_IL (s : State) (a : MatAddr) (v : Byte) : (s.setMat a v).IL = s.IL := (rfl)
@[simp] theorem State.setMat_X (s : State) (a : MatAddr) (v : Byte) : (s.setMat a v).X = s.X := (rfl)
@[simp] theorem State.setMat_PH (s : State) (a : MatAddr) (v : Byte) : (s.setMat a v).PH = s.PH := (rfl)
@[simp] theorem State.setMat_V (s : State) (a : MatAddr) (v : Byte) : (s.setMat a v).V = s.V := (rfl)
@[simp] theorem State.setMat_ERR (s : State) (a : MatAddr) (v : Byte) : (s.setMat a v).ERR = s.ERR := (rfl)
@[simp] theorem State.setMat_ERRLEN (s : State) (a : MatAddr) (v : Byte) : (s.setMat a v).ERRLEN = s.ERRLEN := (rfl)
@[simp] theorem State.setMat_ILL (s : State) (a : MatAddr) (v : Byte) : (s.setMat a v).ILL = s.ILL := (rfl)
@[simp] theorem State.setMat_MAT (s : State) (a : MatAddr) (v : Byte) : (s.setMat a v).MAT = s.MAT.write a.toNat v := (rfl)
@[simp] theorem State.setMat_host (s : State) (a : MatAddr) (v : Byte) : (s.setMat a v).host = s.host := (rfl)
@[simp] theorem State.setMat_outQ (s : State) (a : MatAddr) (v : Byte) : (s.setMat a v).outQ = s.outQ := (rfl)
@[simp] theorem State.setMat_dout (s : State) (a : MatAddr) (v : Byte) : (s.setMat a v).dout = s.dout := (rfl)
@[simp] theorem State.setMat_illSeen (s : State) (a : MatAddr) (v : Byte) : (s.setMat a v).illSeen = s.illSeen := (rfl)

/-! ### doutPut -/

@[simp] theorem State.doutPut_P (s : State) (v : Byte) : (s.doutPut v).P = s.P := (rfl)
@[simp] theorem State.doutPut_pEpoch (s : State) (v : Byte) : (s.doutPut v).pEpoch = s.pEpoch := (rfl)
@[simp] theorem State.doutPut_S (s : State) (v : Byte) : (s.doutPut v).S = s.S := (rfl)
@[simp] theorem State.doutPut_N (s : State) (v : Byte) : (s.doutPut v).N = s.N := (rfl)
@[simp] theorem State.doutPut_M (s : State) (v : Byte) : (s.doutPut v).M = s.M := (rfl)
@[simp] theorem State.doutPut_J (s : State) (v : Byte) : (s.doutPut v).J = s.J := (rfl)
@[simp] theorem State.doutPut_PASS (s : State) (v : Byte) : (s.doutPut v).PASS = s.PASS := (rfl)
@[simp] theorem State.doutPut_KL (s : State) (v : Byte) : (s.doutPut v).KL = s.KL := (rfl)
@[simp] theorem State.doutPut_IL (s : State) (v : Byte) : (s.doutPut v).IL = s.IL := (rfl)
@[simp] theorem State.doutPut_X (s : State) (v : Byte) : (s.doutPut v).X = s.X := (rfl)
@[simp] theorem State.doutPut_PH (s : State) (v : Byte) : (s.doutPut v).PH = s.PH := (rfl)
@[simp] theorem State.doutPut_V (s : State) (v : Byte) : (s.doutPut v).V = s.V := (rfl)
@[simp] theorem State.doutPut_ERR (s : State) (v : Byte) : (s.doutPut v).ERR = s.ERR := (rfl)
@[simp] theorem State.doutPut_ERRLEN (s : State) (v : Byte) : (s.doutPut v).ERRLEN = s.ERRLEN := (rfl)
@[simp] theorem State.doutPut_ILL (s : State) (v : Byte) : (s.doutPut v).ILL = s.ILL := (rfl)
@[simp] theorem State.doutPut_MAT (s : State) (v : Byte) : (s.doutPut v).MAT = s.MAT := (rfl)
@[simp] theorem State.doutPut_host (s : State) (v : Byte) : (s.doutPut v).host = s.host := (rfl)
@[simp] theorem State.doutPut_outQ (s : State) (v : Byte) : (s.doutPut v).outQ = s.outQ ++ [v] := (rfl)
@[simp] theorem State.doutPut_dout (s : State) (v : Byte) : (s.doutPut v).dout = s.dout := (rfl)
@[simp] theorem State.doutPut_illSeen (s : State) (v : Byte) : (s.doutPut v).illSeen = s.illSeen := (rfl)

/-! ### accept -/

@[simp] theorem State.accept_P (s : State) : (s.accept).P = s.P := (rfl)
@[simp] theorem State.accept_pEpoch (s : State) : (s.accept).pEpoch = s.pEpoch := (rfl)
@[simp] theorem State.accept_S (s : State) : (s.accept).S = s.S := (rfl)
@[simp] theorem State.accept_N (s : State) : (s.accept).N = s.N := (rfl)
@[simp] theorem State.accept_M (s : State) : (s.accept).M = s.M := (rfl)
@[simp] theorem State.accept_J (s : State) : (s.accept).J = s.J := (rfl)
@[simp] theorem State.accept_PASS (s : State) : (s.accept).PASS = s.PASS := (rfl)
@[simp] theorem State.accept_KL (s : State) : (s.accept).KL = s.KL := (rfl)
@[simp] theorem State.accept_IL (s : State) : (s.accept).IL = s.IL := (rfl)
@[simp] theorem State.accept_X (s : State) : (s.accept).X = s.X := (rfl)
@[simp] theorem State.accept_PH (s : State) : (s.accept).PH = .idle := (rfl)
@[simp] theorem State.accept_V (s : State) : (s.accept).V = s.V := (rfl)
@[simp] theorem State.accept_ERR (s : State) : (s.accept).ERR = s.ERR := (rfl)
@[simp] theorem State.accept_ERRLEN (s : State) : (s.accept).ERRLEN = s.ERRLEN := (rfl)
@[simp] theorem State.accept_ILL (s : State) : (s.accept).ILL = false := (rfl)
@[simp] theorem State.accept_MAT (s : State) : (s.accept).MAT = s.MAT := (rfl)
@[simp] theorem State.accept_host (s : State) : (s.accept).host = s.host := (rfl)
@[simp] theorem State.accept_outQ (s : State) : (s.accept).outQ = s.outQ := (rfl)
@[simp] theorem State.accept_dout (s : State) : (s.accept).dout = s.dout := (rfl)
@[simp] theorem State.accept_illSeen (s : State) : (s.accept).illSeen = s.illSeen := (rfl)

/-! ### raiseInvalidSize -/

@[simp] theorem State.raiseInvalidSize_P (s : State) (L : Byte) : (s.raiseInvalidSize L).P = s.P := (rfl)
@[simp] theorem State.raiseInvalidSize_pEpoch (s : State) (L : Byte) : (s.raiseInvalidSize L).pEpoch = s.pEpoch := (rfl)
@[simp] theorem State.raiseInvalidSize_S (s : State) (L : Byte) : (s.raiseInvalidSize L).S = s.S := (rfl)
@[simp] theorem State.raiseInvalidSize_N (s : State) (L : Byte) : (s.raiseInvalidSize L).N = s.N := (rfl)
@[simp] theorem State.raiseInvalidSize_M (s : State) (L : Byte) : (s.raiseInvalidSize L).M = s.M := (rfl)
@[simp] theorem State.raiseInvalidSize_J (s : State) (L : Byte) : (s.raiseInvalidSize L).J = s.J := (rfl)
@[simp] theorem State.raiseInvalidSize_PASS (s : State) (L : Byte) : (s.raiseInvalidSize L).PASS = s.PASS := (rfl)
@[simp] theorem State.raiseInvalidSize_KL (s : State) (L : Byte) : (s.raiseInvalidSize L).KL = s.KL := (rfl)
@[simp] theorem State.raiseInvalidSize_IL (s : State) (L : Byte) : (s.raiseInvalidSize L).IL = s.IL := (rfl)
@[simp] theorem State.raiseInvalidSize_X (s : State) (L : Byte) : (s.raiseInvalidSize L).X = s.X := (rfl)
@[simp] theorem State.raiseInvalidSize_PH (s : State) (L : Byte) : (s.raiseInvalidSize L).PH = .idle := (rfl)
@[simp] theorem State.raiseInvalidSize_V (s : State) (L : Byte) : (s.raiseInvalidSize L).V = s.V := (rfl)
@[simp] theorem State.raiseInvalidSize_ERR (s : State) (L : Byte) : (s.raiseInvalidSize L).ERR = true := (rfl)
@[simp] theorem State.raiseInvalidSize_ERRLEN (s : State) (L : Byte) : (s.raiseInvalidSize L).ERRLEN = L := (rfl)
@[simp] theorem State.raiseInvalidSize_ILL (s : State) (L : Byte) : (s.raiseInvalidSize L).ILL = s.ILL := (rfl)
@[simp] theorem State.raiseInvalidSize_MAT (s : State) (L : Byte) : (s.raiseInvalidSize L).MAT = s.MAT := (rfl)
@[simp] theorem State.raiseInvalidSize_host (s : State) (L : Byte) : (s.raiseInvalidSize L).host = s.host := (rfl)
@[simp] theorem State.raiseInvalidSize_outQ (s : State) (L : Byte) : (s.raiseInvalidSize L).outQ = s.outQ := (rfl)
@[simp] theorem State.raiseInvalidSize_dout (s : State) (L : Byte) : (s.raiseInvalidSize L).dout = s.dout := (rfl)
@[simp] theorem State.raiseInvalidSize_illSeen (s : State) (L : Byte) : (s.raiseInvalidSize L).illSeen = s.illSeen := (rfl)

/-! ### raiseIllegal -/

@[simp] theorem State.raiseIllegal_P (s : State) : (s.raiseIllegal).P = s.P := (rfl)
@[simp] theorem State.raiseIllegal_pEpoch (s : State) : (s.raiseIllegal).pEpoch = s.pEpoch := (rfl)
@[simp] theorem State.raiseIllegal_S (s : State) : (s.raiseIllegal).S = s.S := (rfl)
@[simp] theorem State.raiseIllegal_N (s : State) : (s.raiseIllegal).N = s.N := (rfl)
@[simp] theorem State.raiseIllegal_M (s : State) : (s.raiseIllegal).M = s.M := (rfl)
@[simp] theorem State.raiseIllegal_J (s : State) : (s.raiseIllegal).J = s.J := (rfl)
@[simp] theorem State.raiseIllegal_PASS (s : State) : (s.raiseIllegal).PASS = s.PASS := (rfl)
@[simp] theorem State.raiseIllegal_KL (s : State) : (s.raiseIllegal).KL = s.KL := (rfl)
@[simp] theorem State.raiseIllegal_IL (s : State) : (s.raiseIllegal).IL = s.IL := (rfl)
@[simp] theorem State.raiseIllegal_X (s : State) : (s.raiseIllegal).X = s.X := (rfl)
@[simp] theorem State.raiseIllegal_PH (s : State) : (s.raiseIllegal).PH = s.PH := (rfl)
@[simp] theorem State.raiseIllegal_V (s : State) : (s.raiseIllegal).V = s.V := (rfl)
@[simp] theorem State.raiseIllegal_ERR (s : State) : (s.raiseIllegal).ERR = s.ERR := (rfl)
@[simp] theorem State.raiseIllegal_ERRLEN (s : State) : (s.raiseIllegal).ERRLEN = s.ERRLEN := (rfl)
@[simp] theorem State.raiseIllegal_ILL (s : State) : (s.raiseIllegal).ILL = true := (rfl)
@[simp] theorem State.raiseIllegal_MAT (s : State) : (s.raiseIllegal).MAT = s.MAT := (rfl)
@[simp] theorem State.raiseIllegal_host (s : State) : (s.raiseIllegal).host = s.host := (rfl)
@[simp] theorem State.raiseIllegal_outQ (s : State) : (s.raiseIllegal).outQ = s.outQ := (rfl)
@[simp] theorem State.raiseIllegal_dout (s : State) : (s.raiseIllegal).dout = s.dout := (rfl)
@[simp] theorem State.raiseIllegal_illSeen (s : State) : (s.raiseIllegal).illSeen = true := (rfl)

/-! ### hostReset -/

@[simp] theorem State.hostReset_P (s : State) : (s.hostReset).P = [] := (rfl)
@[simp] theorem State.hostReset_pEpoch (s : State) : (s.hostReset).pEpoch = s.pEpoch + 1 := (rfl)
@[simp] theorem State.hostReset_S (s : State) : (s.hostReset).S = 0x00#8 := (rfl)
@[simp] theorem State.hostReset_N (s : State) : (s.hostReset).N = 0x00#8 := (rfl)
@[simp] theorem State.hostReset_M (s : State) : (s.hostReset).M = 0#10 := (rfl)
@[simp] theorem State.hostReset_J (s : State) : (s.hostReset).J = 0#6 := (rfl)
@[simp] theorem State.hostReset_PASS (s : State) : (s.hostReset).PASS = 0#2 := (rfl)
@[simp] theorem State.hostReset_KL (s : State) : (s.hostReset).KL = 0x00#8 := (rfl)
@[simp] theorem State.hostReset_IL (s : State) : (s.hostReset).IL = 0x00#8 := (rfl)
@[simp] theorem State.hostReset_X (s : State) : (s.hostReset).X = false := (rfl)
@[simp] theorem State.hostReset_PH (s : State) : (s.hostReset).PH = .idle := (rfl)
@[simp] theorem State.hostReset_V (s : State) : (s.hostReset).V = false := (rfl)
@[simp] theorem State.hostReset_ERR (s : State) : (s.hostReset).ERR = false := (rfl)
@[simp] theorem State.hostReset_ERRLEN (s : State) : (s.hostReset).ERRLEN = 0x00#8 := (rfl)
@[simp] theorem State.hostReset_ILL (s : State) : (s.hostReset).ILL = false := (rfl)
@[simp] theorem State.hostReset_MAT (s : State) : (s.hostReset).MAT = s.MAT := (rfl)
@[simp] theorem State.hostReset_host (s : State) : (s.hostReset).host = s.host := (rfl)
@[simp] theorem State.hostReset_outQ (s : State) : (s.hostReset).outQ = [] := (rfl)
@[simp] theorem State.hostReset_dout (s : State) : (s.hostReset).dout = s.dout := (rfl)
@[simp] theorem State.hostReset_illSeen (s : State) : (s.hostReset).illSeen = s.illSeen := (rfl)

/-! ### withHost -/

@[simp] theorem State.withHost_P (s : State) (rest : List HostEvent) : (s.withHost rest).P = s.P := (rfl)
@[simp] theorem State.withHost_pEpoch (s : State) (rest : List HostEvent) : (s.withHost rest).pEpoch = s.pEpoch := (rfl)
@[simp] theorem State.withHost_S (s : State) (rest : List HostEvent) : (s.withHost rest).S = s.S := (rfl)
@[simp] theorem State.withHost_N (s : State) (rest : List HostEvent) : (s.withHost rest).N = s.N := (rfl)
@[simp] theorem State.withHost_M (s : State) (rest : List HostEvent) : (s.withHost rest).M = s.M := (rfl)
@[simp] theorem State.withHost_J (s : State) (rest : List HostEvent) : (s.withHost rest).J = s.J := (rfl)
@[simp] theorem State.withHost_PASS (s : State) (rest : List HostEvent) : (s.withHost rest).PASS = s.PASS := (rfl)
@[simp] theorem State.withHost_KL (s : State) (rest : List HostEvent) : (s.withHost rest).KL = s.KL := (rfl)
@[simp] theorem State.withHost_IL (s : State) (rest : List HostEvent) : (s.withHost rest).IL = s.IL := (rfl)
@[simp] theorem State.withHost_X (s : State) (rest : List HostEvent) : (s.withHost rest).X = s.X := (rfl)
@[simp] theorem State.withHost_PH (s : State) (rest : List HostEvent) : (s.withHost rest).PH = s.PH := (rfl)
@[simp] theorem State.withHost_V (s : State) (rest : List HostEvent) : (s.withHost rest).V = s.V := (rfl)
@[simp] theorem State.withHost_ERR (s : State) (rest : List HostEvent) : (s.withHost rest).ERR = s.ERR := (rfl)
@[simp] theorem State.withHost_ERRLEN (s : State) (rest : List HostEvent) : (s.withHost rest).ERRLEN = s.ERRLEN := (rfl)
@[simp] theorem State.withHost_ILL (s : State) (rest : List HostEvent) : (s.withHost rest).ILL = s.ILL := (rfl)
@[simp] theorem State.withHost_MAT (s : State) (rest : List HostEvent) : (s.withHost rest).MAT = s.MAT := (rfl)
@[simp] theorem State.withHost_host (s : State) (rest : List HostEvent) : (s.withHost rest).host = rest := (rfl)
@[simp] theorem State.withHost_outQ (s : State) (rest : List HostEvent) : (s.withHost rest).outQ = s.outQ := (rfl)
@[simp] theorem State.withHost_dout (s : State) (rest : List HostEvent) : (s.withHost rest).dout = s.dout := (rfl)
@[simp] theorem State.withHost_illSeen (s : State) (rest : List HostEvent) : (s.withHost rest).illSeen = s.illSeen := (rfl)

/-! ### acceptInit -/

@[simp] theorem State.acceptInit_P (s : State) (x : Bool) (klen ivlen : Byte) : (s.acceptInit x klen ivlen).P = s.P := (rfl)
@[simp] theorem State.acceptInit_pEpoch (s : State) (x : Bool) (klen ivlen : Byte) : (s.acceptInit x klen ivlen).pEpoch = s.pEpoch := (rfl)
@[simp] theorem State.acceptInit_S (s : State) (x : Bool) (klen ivlen : Byte) : (s.acceptInit x klen ivlen).S = s.S := (rfl)
@[simp] theorem State.acceptInit_N (s : State) (x : Bool) (klen ivlen : Byte) : (s.acceptInit x klen ivlen).N = s.N := (rfl)
@[simp] theorem State.acceptInit_M (s : State) (x : Bool) (klen ivlen : Byte) : (s.acceptInit x klen ivlen).M = 0#10 := (rfl)
@[simp] theorem State.acceptInit_J (s : State) (x : Bool) (klen ivlen : Byte) : (s.acceptInit x klen ivlen).J = 0#6 := (rfl)
@[simp] theorem State.acceptInit_PASS (s : State) (x : Bool) (klen ivlen : Byte) : (s.acceptInit x klen ivlen).PASS = 0#2 := (rfl)
@[simp] theorem State.acceptInit_KL (s : State) (x : Bool) (klen ivlen : Byte) : (s.acceptInit x klen ivlen).KL = klen := (rfl)
@[simp] theorem State.acceptInit_IL (s : State) (x : Bool) (klen ivlen : Byte) : (s.acceptInit x klen ivlen).IL = ivlen := (rfl)
@[simp] theorem State.acceptInit_X (s : State) (x : Bool) (klen ivlen : Byte) : (s.acceptInit x klen ivlen).X = x := (rfl)
@[simp] theorem State.acceptInit_PH (s : State) (x : Bool) (klen ivlen : Byte) : (s.acceptInit x klen ivlen).PH = .fill := (rfl)
@[simp] theorem State.acceptInit_V (s : State) (x : Bool) (klen ivlen : Byte) : (s.acceptInit x klen ivlen).V = false := (rfl)
@[simp] theorem State.acceptInit_ERR (s : State) (x : Bool) (klen ivlen : Byte) : (s.acceptInit x klen ivlen).ERR = false := (rfl)
@[simp] theorem State.acceptInit_ERRLEN (s : State) (x : Bool) (klen ivlen : Byte) : (s.acceptInit x klen ivlen).ERRLEN = 0x00#8 := (rfl)
@[simp] theorem State.acceptInit_ILL (s : State) (x : Bool) (klen ivlen : Byte) : (s.acceptInit x klen ivlen).ILL = false := (rfl)
@[simp] theorem State.acceptInit_MAT (s : State) (x : Bool) (klen ivlen : Byte) : (s.acceptInit x klen ivlen).MAT = s.MAT := (rfl)
@[simp] theorem State.acceptInit_host (s : State) (x : Bool) (klen ivlen : Byte) : (s.acceptInit x klen ivlen).host = s.host := (rfl)
@[simp] theorem State.acceptInit_outQ (s : State) (x : Bool) (klen ivlen : Byte) : (s.acceptInit x klen ivlen).outQ = s.outQ := (rfl)
@[simp] theorem State.acceptInit_dout (s : State) (x : Bool) (klen ivlen : Byte) : (s.acceptInit x klen ivlen).dout = s.dout := (rfl)
@[simp] theorem State.acceptInit_illSeen (s : State) (x : Bool) (klen ivlen : Byte) : (s.acceptInit x klen ivlen).illSeen = s.illSeen := (rfl)

/-! ### completeInit -/

@[simp] theorem State.completeInit_P (s : State) : (s.completeInit).P = s.P := (rfl)
@[simp] theorem State.completeInit_pEpoch (s : State) : (s.completeInit).pEpoch = s.pEpoch := (rfl)
@[simp] theorem State.completeInit_S (s : State) : (s.completeInit).S = s.S := (rfl)
@[simp] theorem State.completeInit_N (s : State) : (s.completeInit).N = s.N := (rfl)
@[simp] theorem State.completeInit_M (s : State) : (s.completeInit).M = s.M := (rfl)
@[simp] theorem State.completeInit_J (s : State) : (s.completeInit).J = s.J := (rfl)
@[simp] theorem State.completeInit_PASS (s : State) : (s.completeInit).PASS = s.PASS := (rfl)
@[simp] theorem State.completeInit_KL (s : State) : (s.completeInit).KL = s.KL := (rfl)
@[simp] theorem State.completeInit_IL (s : State) : (s.completeInit).IL = s.IL := (rfl)
@[simp] theorem State.completeInit_X (s : State) : (s.completeInit).X = s.X := (rfl)
@[simp] theorem State.completeInit_PH (s : State) : (s.completeInit).PH = .idle := (rfl)
@[simp] theorem State.completeInit_V (s : State) : (s.completeInit).V = true := (rfl)
@[simp] theorem State.completeInit_ERR (s : State) : (s.completeInit).ERR = s.ERR := (rfl)
@[simp] theorem State.completeInit_ERRLEN (s : State) : (s.completeInit).ERRLEN = s.ERRLEN := (rfl)
@[simp] theorem State.completeInit_ILL (s : State) : (s.completeInit).ILL = s.ILL := (rfl)
@[simp] theorem State.completeInit_MAT (s : State) : (s.completeInit).MAT = s.MAT := (rfl)
@[simp] theorem State.completeInit_host (s : State) : (s.completeInit).host = s.host := (rfl)
@[simp] theorem State.completeInit_outQ (s : State) : (s.completeInit).outQ = s.outQ := (rfl)
@[simp] theorem State.completeInit_dout (s : State) : (s.completeInit).dout = s.dout := (rfl)
@[simp] theorem State.completeInit_illSeen (s : State) : (s.completeInit).illSeen = s.illSeen := (rfl)

/-! ### acceptWipe -/

@[simp] theorem State.acceptWipe_P (s : State) : (s.acceptWipe).P = s.P := (rfl)
@[simp] theorem State.acceptWipe_pEpoch (s : State) : (s.acceptWipe).pEpoch = s.pEpoch := (rfl)
@[simp] theorem State.acceptWipe_S (s : State) : (s.acceptWipe).S = s.S := (rfl)
@[simp] theorem State.acceptWipe_N (s : State) : (s.acceptWipe).N = s.N := (rfl)
@[simp] theorem State.acceptWipe_M (s : State) : (s.acceptWipe).M = s.M := (rfl)
@[simp] theorem State.acceptWipe_J (s : State) : (s.acceptWipe).J = s.J := (rfl)
@[simp] theorem State.acceptWipe_PASS (s : State) : (s.acceptWipe).PASS = s.PASS := (rfl)
@[simp] theorem State.acceptWipe_KL (s : State) : (s.acceptWipe).KL = s.KL := (rfl)
@[simp] theorem State.acceptWipe_IL (s : State) : (s.acceptWipe).IL = s.IL := (rfl)
@[simp] theorem State.acceptWipe_X (s : State) : (s.acceptWipe).X = s.X := (rfl)
@[simp] theorem State.acceptWipe_PH (s : State) : (s.acceptWipe).PH = .wiping := (rfl)
@[simp] theorem State.acceptWipe_V (s : State) : (s.acceptWipe).V = false := (rfl)
@[simp] theorem State.acceptWipe_ERR (s : State) : (s.acceptWipe).ERR = s.ERR := (rfl)
@[simp] theorem State.acceptWipe_ERRLEN (s : State) : (s.acceptWipe).ERRLEN = s.ERRLEN := (rfl)
@[simp] theorem State.acceptWipe_ILL (s : State) : (s.acceptWipe).ILL = false := (rfl)
@[simp] theorem State.acceptWipe_MAT (s : State) : (s.acceptWipe).MAT = s.MAT := (rfl)
@[simp] theorem State.acceptWipe_host (s : State) : (s.acceptWipe).host = s.host := (rfl)
@[simp] theorem State.acceptWipe_outQ (s : State) : (s.acceptWipe).outQ = s.outQ := (rfl)
@[simp] theorem State.acceptWipe_dout (s : State) : (s.acceptWipe).dout = s.dout := (rfl)
@[simp] theorem State.acceptWipe_illSeen (s : State) : (s.acceptWipe).illSeen = s.illSeen := (rfl)

/-! ### swapP -/

@[simp] theorem State.swapP_P (s : State) (x y : Byte) : (s.swapP x y).P = (s.P.write x.toNat (s.readP y)).write y.toNat (s.readP x) := (rfl)
@[simp] theorem State.swapP_pEpoch (s : State) (x y : Byte) : (s.swapP x y).pEpoch = s.pEpoch := (rfl)
@[simp] theorem State.swapP_S (s : State) (x y : Byte) : (s.swapP x y).S = s.S := (rfl)
@[simp] theorem State.swapP_N (s : State) (x y : Byte) : (s.swapP x y).N = s.N := (rfl)
@[simp] theorem State.swapP_M (s : State) (x y : Byte) : (s.swapP x y).M = s.M := (rfl)
@[simp] theorem State.swapP_J (s : State) (x y : Byte) : (s.swapP x y).J = s.J := (rfl)
@[simp] theorem State.swapP_PASS (s : State) (x y : Byte) : (s.swapP x y).PASS = s.PASS := (rfl)
@[simp] theorem State.swapP_KL (s : State) (x y : Byte) : (s.swapP x y).KL = s.KL := (rfl)
@[simp] theorem State.swapP_IL (s : State) (x y : Byte) : (s.swapP x y).IL = s.IL := (rfl)
@[simp] theorem State.swapP_X (s : State) (x y : Byte) : (s.swapP x y).X = s.X := (rfl)
@[simp] theorem State.swapP_PH (s : State) (x y : Byte) : (s.swapP x y).PH = s.PH := (rfl)
@[simp] theorem State.swapP_V (s : State) (x y : Byte) : (s.swapP x y).V = s.V := (rfl)
@[simp] theorem State.swapP_ERR (s : State) (x y : Byte) : (s.swapP x y).ERR = s.ERR := (rfl)
@[simp] theorem State.swapP_ERRLEN (s : State) (x y : Byte) : (s.swapP x y).ERRLEN = s.ERRLEN := (rfl)
@[simp] theorem State.swapP_ILL (s : State) (x y : Byte) : (s.swapP x y).ILL = s.ILL := (rfl)
@[simp] theorem State.swapP_MAT (s : State) (x y : Byte) : (s.swapP x y).MAT = s.MAT := (rfl)
@[simp] theorem State.swapP_host (s : State) (x y : Byte) : (s.swapP x y).host = s.host := (rfl)
@[simp] theorem State.swapP_outQ (s : State) (x y : Byte) : (s.swapP x y).outQ = s.outQ := (rfl)
@[simp] theorem State.swapP_dout (s : State) (x y : Byte) : (s.swapP x y).dout = s.dout := (rfl)
@[simp] theorem State.swapP_illSeen (s : State) (x y : Byte) : (s.swapP x y).illSeen = s.illSeen := (rfl)

/-! ### ksaRound -/

@[simp] theorem State.ksaRound_P (s : State) (bank : BitVec 1) (L : Byte) : (s.ksaRound bank L).P = (s.swapP s.ksaPos (s.ksaNewS bank)).P := (rfl)
@[simp] theorem State.ksaRound_pEpoch (s : State) (bank : BitVec 1) (L : Byte) : (s.ksaRound bank L).pEpoch = s.pEpoch := (rfl)
@[simp] theorem State.ksaRound_S (s : State) (bank : BitVec 1) (L : Byte) : (s.ksaRound bank L).S = s.ksaNewS bank := (rfl)
@[simp] theorem State.ksaRound_N (s : State) (bank : BitVec 1) (L : Byte) : (s.ksaRound bank L).N = s.N := (rfl)
@[simp] theorem State.ksaRound_M (s : State) (bank : BitVec 1) (L : Byte) : (s.ksaRound bank L).M = s.M + 1#10 := (rfl)
@[simp] theorem State.ksaRound_J (s : State) (bank : BitVec 1) (L : Byte) : (s.ksaRound bank L).J = nextJ s.J L := (rfl)
@[simp] theorem State.ksaRound_PASS (s : State) (bank : BitVec 1) (L : Byte) : (s.ksaRound bank L).PASS = s.PASS := (rfl)
@[simp] theorem State.ksaRound_KL (s : State) (bank : BitVec 1) (L : Byte) : (s.ksaRound bank L).KL = s.KL := (rfl)
@[simp] theorem State.ksaRound_IL (s : State) (bank : BitVec 1) (L : Byte) : (s.ksaRound bank L).IL = s.IL := (rfl)
@[simp] theorem State.ksaRound_X (s : State) (bank : BitVec 1) (L : Byte) : (s.ksaRound bank L).X = s.X := (rfl)
@[simp] theorem State.ksaRound_PH (s : State) (bank : BitVec 1) (L : Byte) : (s.ksaRound bank L).PH = s.PH := (rfl)
@[simp] theorem State.ksaRound_V (s : State) (bank : BitVec 1) (L : Byte) : (s.ksaRound bank L).V = s.V := (rfl)
@[simp] theorem State.ksaRound_ERR (s : State) (bank : BitVec 1) (L : Byte) : (s.ksaRound bank L).ERR = s.ERR := (rfl)
@[simp] theorem State.ksaRound_ERRLEN (s : State) (bank : BitVec 1) (L : Byte) : (s.ksaRound bank L).ERRLEN = s.ERRLEN := (rfl)
@[simp] theorem State.ksaRound_ILL (s : State) (bank : BitVec 1) (L : Byte) : (s.ksaRound bank L).ILL = s.ILL := (rfl)
@[simp] theorem State.ksaRound_MAT (s : State) (bank : BitVec 1) (L : Byte) : (s.ksaRound bank L).MAT = s.MAT := (rfl)
@[simp] theorem State.ksaRound_host (s : State) (bank : BitVec 1) (L : Byte) : (s.ksaRound bank L).host = s.host := (rfl)
@[simp] theorem State.ksaRound_outQ (s : State) (bank : BitVec 1) (L : Byte) : (s.ksaRound bank L).outQ = s.outQ := (rfl)
@[simp] theorem State.ksaRound_dout (s : State) (bank : BitVec 1) (L : Byte) : (s.ksaRound bank L).dout = s.dout := (rfl)
@[simp] theorem State.ksaRound_illSeen (s : State) (bank : BitVec 1) (L : Byte) : (s.ksaRound bank L).illSeen = s.illSeen := (rfl)

/-! ### ksStep -/

@[simp] theorem State.ksStep_P (s : State) (d : Byte) : (s.ksStep d).P = (s.swapP s.ksPos s.ksNewS).P := (rfl)
@[simp] theorem State.ksStep_pEpoch (s : State) (d : Byte) : (s.ksStep d).pEpoch = s.pEpoch := (rfl)
@[simp] theorem State.ksStep_S (s : State) (d : Byte) : (s.ksStep d).S = s.ksNewS := (rfl)
@[simp] theorem State.ksStep_N (s : State) (d : Byte) : (s.ksStep d).N = s.N + 1#8 := (rfl)
@[simp] theorem State.ksStep_M (s : State) (d : Byte) : (s.ksStep d).M = s.M := (rfl)
@[simp] theorem State.ksStep_J (s : State) (d : Byte) : (s.ksStep d).J = s.J := (rfl)
@[simp] theorem State.ksStep_PASS (s : State) (d : Byte) : (s.ksStep d).PASS = s.PASS := (rfl)
@[simp] theorem State.ksStep_KL (s : State) (d : Byte) : (s.ksStep d).KL = s.KL := (rfl)
@[simp] theorem State.ksStep_IL (s : State) (d : Byte) : (s.ksStep d).IL = s.IL := (rfl)
@[simp] theorem State.ksStep_X (s : State) (d : Byte) : (s.ksStep d).X = s.X := (rfl)
@[simp] theorem State.ksStep_PH (s : State) (d : Byte) : (s.ksStep d).PH = s.PH := (rfl)
@[simp] theorem State.ksStep_V (s : State) (d : Byte) : (s.ksStep d).V = s.V := (rfl)
@[simp] theorem State.ksStep_ERR (s : State) (d : Byte) : (s.ksStep d).ERR = s.ERR := (rfl)
@[simp] theorem State.ksStep_ERRLEN (s : State) (d : Byte) : (s.ksStep d).ERRLEN = s.ERRLEN := (rfl)
@[simp] theorem State.ksStep_ILL (s : State) (d : Byte) : (s.ksStep d).ILL = s.ILL := (rfl)
@[simp] theorem State.ksStep_MAT (s : State) (d : Byte) : (s.ksStep d).MAT = s.MAT := (rfl)
@[simp] theorem State.ksStep_host (s : State) (d : Byte) : (s.ksStep d).host = s.host := (rfl)
@[simp] theorem State.ksStep_outQ (s : State) (d : Byte) : (s.ksStep d).outQ = s.outQ ++ [d ^^^ s.ksByte] := (rfl)
@[simp] theorem State.ksStep_dout (s : State) (d : Byte) : (s.ksStep d).dout = s.dout := (rfl)
@[simp] theorem State.ksStep_illSeen (s : State) (d : Byte) : (s.ksStep d).illSeen = s.illSeen := (rfl)

/-! ### storeAll -/

@[simp] theorem State.storeAll_P (s : State) (f : Byte → Byte) : (s.storeAll f).P = s.P.storeAll f := (rfl)
@[simp] theorem State.storeAll_pEpoch (s : State) (f : Byte → Byte) : (s.storeAll f).pEpoch = s.pEpoch := (rfl)
@[simp] theorem State.storeAll_S (s : State) (f : Byte → Byte) : (s.storeAll f).S = s.S := (rfl)
@[simp] theorem State.storeAll_N (s : State) (f : Byte → Byte) : (s.storeAll f).N = s.N := (rfl)
@[simp] theorem State.storeAll_M (s : State) (f : Byte → Byte) : (s.storeAll f).M = s.M := (rfl)
@[simp] theorem State.storeAll_J (s : State) (f : Byte → Byte) : (s.storeAll f).J = s.J := (rfl)
@[simp] theorem State.storeAll_PASS (s : State) (f : Byte → Byte) : (s.storeAll f).PASS = s.PASS := (rfl)
@[simp] theorem State.storeAll_KL (s : State) (f : Byte → Byte) : (s.storeAll f).KL = s.KL := (rfl)
@[simp] theorem State.storeAll_IL (s : State) (f : Byte → Byte) : (s.storeAll f).IL = s.IL := (rfl)
@[simp] theorem State.storeAll_X (s : State) (f : Byte → Byte) : (s.storeAll f).X = s.X := (rfl)
@[simp] theorem State.storeAll_PH (s : State) (f : Byte → Byte) : (s.storeAll f).PH = s.PH := (rfl)
@[simp] theorem State.storeAll_V (s : State) (f : Byte → Byte) : (s.storeAll f).V = s.V := (rfl)
@[simp] theorem State.storeAll_ERR (s : State) (f : Byte → Byte) : (s.storeAll f).ERR = s.ERR := (rfl)
@[simp] theorem State.storeAll_ERRLEN (s : State) (f : Byte → Byte) : (s.storeAll f).ERRLEN = s.ERRLEN := (rfl)
@[simp] theorem State.storeAll_ILL (s : State) (f : Byte → Byte) : (s.storeAll f).ILL = s.ILL := (rfl)
@[simp] theorem State.storeAll_MAT (s : State) (f : Byte → Byte) : (s.storeAll f).MAT = s.MAT := (rfl)
@[simp] theorem State.storeAll_host (s : State) (f : Byte → Byte) : (s.storeAll f).host = s.host := (rfl)
@[simp] theorem State.storeAll_outQ (s : State) (f : Byte → Byte) : (s.storeAll f).outQ = s.outQ := (rfl)
@[simp] theorem State.storeAll_dout (s : State) (f : Byte → Byte) : (s.storeAll f).dout = s.dout := (rfl)
@[simp] theorem State.storeAll_illSeen (s : State) (f : Byte → Byte) : (s.storeAll f).illSeen = s.illSeen := (rfl)

/-! ### identityFill -/

@[simp] theorem State.identityFill_P (s : State) : (s.identityFill).P = s.P.storeAll id := (rfl)
@[simp] theorem State.identityFill_pEpoch (s : State) : (s.identityFill).pEpoch = s.pEpoch := (rfl)
@[simp] theorem State.identityFill_S (s : State) : (s.identityFill).S = 0x00#8 := (rfl)
@[simp] theorem State.identityFill_N (s : State) : (s.identityFill).N = s.N := (rfl)
@[simp] theorem State.identityFill_M (s : State) : (s.identityFill).M = s.M := (rfl)
@[simp] theorem State.identityFill_J (s : State) : (s.identityFill).J = s.J := (rfl)
@[simp] theorem State.identityFill_PASS (s : State) : (s.identityFill).PASS = s.PASS := (rfl)
@[simp] theorem State.identityFill_KL (s : State) : (s.identityFill).KL = s.KL := (rfl)
@[simp] theorem State.identityFill_IL (s : State) : (s.identityFill).IL = s.IL := (rfl)
@[simp] theorem State.identityFill_X (s : State) : (s.identityFill).X = s.X := (rfl)
@[simp] theorem State.identityFill_PH (s : State) : (s.identityFill).PH = s.PH := (rfl)
@[simp] theorem State.identityFill_V (s : State) : (s.identityFill).V = s.V := (rfl)
@[simp] theorem State.identityFill_ERR (s : State) : (s.identityFill).ERR = s.ERR := (rfl)
@[simp] theorem State.identityFill_ERRLEN (s : State) : (s.identityFill).ERRLEN = s.ERRLEN := (rfl)
@[simp] theorem State.identityFill_ILL (s : State) : (s.identityFill).ILL = s.ILL := (rfl)
@[simp] theorem State.identityFill_MAT (s : State) : (s.identityFill).MAT = s.MAT := (rfl)
@[simp] theorem State.identityFill_host (s : State) : (s.identityFill).host = s.host := (rfl)
@[simp] theorem State.identityFill_outQ (s : State) : (s.identityFill).outQ = s.outQ := (rfl)
@[simp] theorem State.identityFill_dout (s : State) : (s.identityFill).dout = s.dout := (rfl)
@[simp] theorem State.identityFill_illSeen (s : State) : (s.identityFill).illSeen = s.illSeen := (rfl)

/-! ### zeroize -/

@[simp] theorem State.zeroize_P (s : State) : (s.zeroize).P = s.P.storeAll fun _ => 0x00#8 := (rfl)
@[simp] theorem State.zeroize_pEpoch (s : State) : (s.zeroize).pEpoch = s.pEpoch := (rfl)
@[simp] theorem State.zeroize_S (s : State) : (s.zeroize).S = 0x00#8 := (rfl)
@[simp] theorem State.zeroize_N (s : State) : (s.zeroize).N = 0x00#8 := (rfl)
@[simp] theorem State.zeroize_M (s : State) : (s.zeroize).M = s.M := (rfl)
@[simp] theorem State.zeroize_J (s : State) : (s.zeroize).J = s.J := (rfl)
@[simp] theorem State.zeroize_PASS (s : State) : (s.zeroize).PASS = s.PASS := (rfl)
@[simp] theorem State.zeroize_KL (s : State) : (s.zeroize).KL = s.KL := (rfl)
@[simp] theorem State.zeroize_IL (s : State) : (s.zeroize).IL = s.IL := (rfl)
@[simp] theorem State.zeroize_X (s : State) : (s.zeroize).X = s.X := (rfl)
@[simp] theorem State.zeroize_PH (s : State) : (s.zeroize).PH = .idle := (rfl)
@[simp] theorem State.zeroize_V (s : State) : (s.zeroize).V = s.V := (rfl)
@[simp] theorem State.zeroize_ERR (s : State) : (s.zeroize).ERR = false := (rfl)
@[simp] theorem State.zeroize_ERRLEN (s : State) : (s.zeroize).ERRLEN = 0x00#8 := (rfl)
@[simp] theorem State.zeroize_ILL (s : State) : (s.zeroize).ILL = s.ILL := (rfl)
@[simp] theorem State.zeroize_MAT (s : State) : (s.zeroize).MAT = s.MAT := (rfl)
@[simp] theorem State.zeroize_host (s : State) : (s.zeroize).host = s.host := (rfl)
@[simp] theorem State.zeroize_outQ (s : State) : (s.zeroize).outQ = s.outQ := (rfl)
@[simp] theorem State.zeroize_dout (s : State) : (s.zeroize).dout = s.dout := (rfl)
@[simp] theorem State.zeroize_illSeen (s : State) : (s.zeroize).illSeen = s.illSeen := (rfl)

/-! ### deliver: only the two output lists change -/

@[simp] theorem State.deliver_P (s : State) : s.deliver.P = s.P := by unfold State.deliver; split <;> rfl
@[simp] theorem State.deliver_pEpoch (s : State) : s.deliver.pEpoch = s.pEpoch := by unfold State.deliver; split <;> rfl
@[simp] theorem State.deliver_S (s : State) : s.deliver.S = s.S := by unfold State.deliver; split <;> rfl
@[simp] theorem State.deliver_N (s : State) : s.deliver.N = s.N := by unfold State.deliver; split <;> rfl
@[simp] theorem State.deliver_M (s : State) : s.deliver.M = s.M := by unfold State.deliver; split <;> rfl
@[simp] theorem State.deliver_J (s : State) : s.deliver.J = s.J := by unfold State.deliver; split <;> rfl
@[simp] theorem State.deliver_PASS (s : State) : s.deliver.PASS = s.PASS := by unfold State.deliver; split <;> rfl
@[simp] theorem State.deliver_KL (s : State) : s.deliver.KL = s.KL := by unfold State.deliver; split <;> rfl
@[simp] theorem State.deliver_IL (s : State) : s.deliver.IL = s.IL := by unfold State.deliver; split <;> rfl
@[simp] theorem State.deliver_X (s : State) : s.deliver.X = s.X := by unfold State.deliver; split <;> rfl
@[simp] theorem State.deliver_PH (s : State) : s.deliver.PH = s.PH := by unfold State.deliver; split <;> rfl
@[simp] theorem State.deliver_V (s : State) : s.deliver.V = s.V := by unfold State.deliver; split <;> rfl
@[simp] theorem State.deliver_ERR (s : State) : s.deliver.ERR = s.ERR := by unfold State.deliver; split <;> rfl
@[simp] theorem State.deliver_ERRLEN (s : State) : s.deliver.ERRLEN = s.ERRLEN := by unfold State.deliver; split <;> rfl
@[simp] theorem State.deliver_ILL (s : State) : s.deliver.ILL = s.ILL := by unfold State.deliver; split <;> rfl
@[simp] theorem State.deliver_MAT (s : State) : s.deliver.MAT = s.MAT := by unfold State.deliver; split <;> rfl
@[simp] theorem State.deliver_host (s : State) : s.deliver.host = s.host := by unfold State.deliver; split <;> rfl
@[simp] theorem State.deliver_illSeen (s : State) : s.deliver.illSeen = s.illSeen := by unfold State.deliver; split <;> rfl

end Sys2Proof.Machine
end

