-- ==== Sys2Proof/Laws/Memory.lean ====
section
/-! SUPPORT. The two memories: reading after writing, the canonical form, and that canonical memories with the same bytes are
the same list (R52, R53). -/

namespace Sys2Proof.Machine

theorem entries_eq : Config.entries = 256 := by unfold Config.entries; rfl

theorem rounds_eq : Config.rounds = 768 := by unfold Config.rounds; rfl

theorem Memory.lookup_write (m : Memory) (a b : Nat) (v : Byte) :
    (m.write a v).lookup b = if b = a then some v else m.lookup b := by
  induction m with
  | nil => simp only [Memory.write, Memory.lookup, eq_comm]
  | cons c m ih =>
    simp only [Memory.write]
    rcases lt_trichotomy a c.1 with below | same | above
    · rw [if_pos below, Memory.lookup]
      exact if_congr eq_comm rfl rfl
    · rw [if_neg (by omega), if_pos same, Memory.lookup, Memory.lookup, ← same]
      by_cases h : b = a
      · simp [h]
      · simp [h, Ne.symm h]
    · rw [if_neg (by omega), if_neg (by omega), Memory.lookup, Memory.lookup, ih]
      by_cases h : c.1 = b
      · simp only [h, if_true]
        rw [if_neg (by omega)]
      · simp only [h, if_false]

theorem Memory.mem_write {m : Memory} {a : Nat} {v : Byte} {c : Host.Cell} (h : c ∈ m.write a v) :
    c = (a, v) ∨ c ∈ m := by
  induction m with
  | nil => simpa [Memory.write] using h
  | cons d m ih =>
    simp only [Memory.write] at h
    split_ifs at h
    · simpa using h
    · rcases List.mem_cons.mp h with rfl | h
      · exact .inl rfl
      · exact .inr (List.mem_cons_of_mem _ h)
    · rcases List.mem_cons.mp h with rfl | h
      · exact .inr List.mem_cons_self
      · exact (ih h).imp_right (List.mem_cons_of_mem _)

/-- Every write keeps the canonical form. -/
theorem Memory.wf_write {size : Nat} {m : Memory} (h : m.wf size) {a : Nat} (ha : a < size) (v : Byte) :
    (m.write a v).wf size := by
  refine ⟨?_, fun c hc => (Memory.mem_write hc).elim (fun e => e ▸ ha) (h.2 c)⟩
  obtain ⟨rising, -⟩ := h
  induction m with
  | nil => simp [Memory.write]
  | cons d m ih =>
    obtain ⟨above, rest⟩ := List.pairwise_cons.mp rising
    simp only [Memory.write]
    split_ifs with below same
    · exact List.pairwise_cons.mpr ⟨fun c hc => (List.mem_cons.mp hc).elim (fun e => e ▸ below)
        (fun hc => below.trans (above c hc)), rising⟩
    · exact List.pairwise_cons.mpr ⟨fun c hc => same ▸ above c hc, rest⟩
    · exact List.pairwise_cons.mpr ⟨fun c hc => (Memory.mem_write hc).elim (fun e => e ▸ by show d.1 < a; omega) (above c),
        ih rest⟩

theorem Memory.wf_nil (size : Nat) : Memory.wf size [] := by simp [Memory.wf]

theorem Memory.lookup_of_mem {size : Nat} {m : Memory} (h : m.wf size) {c : Host.Cell} (hc : c ∈ m) :
    m.lookup c.1 = some c.2 := by
  obtain ⟨rising, -⟩ := h
  induction m with
  | nil => simp at hc
  | cons d m ih =>
    obtain ⟨above, rest⟩ := List.pairwise_cons.mp rising
    rcases List.mem_cons.mp hc with rfl | hc
    · simp [Memory.lookup]
    · have := above c hc
      rw [Memory.lookup, if_neg (by omega), ih hc rest]

theorem Memory.mem_of_lookup {m : Memory} {a : Nat} {v : Byte} (h : m.lookup a = some v) : (a, v) ∈ m := by
  induction m with
  | nil => simp [Memory.lookup] at h
  | cons d m ih =>
    rw [Memory.lookup] at h
    split_ifs at h with same
    · cases h
      subst same
      exact List.mem_cons_self
    · exact List.mem_cons_of_mem _ (ih h)

theorem Memory.mem_iff_lookup {size : Nat} {m : Memory} (h : m.wf size) (c : Host.Cell) :
    c ∈ m ↔ m.lookup c.1 = some c.2 :=
  ⟨Memory.lookup_of_mem h, Memory.mem_of_lookup⟩

/-- An address outside the space is never listed. -/
theorem Memory.lookup_outside {size : Nat} {m : Memory} (h : m.wf size) {a : Nat} (ha : size ≤ a) : m.lookup a = none := by
  cases e : m.lookup a with
  | none => rfl
  | some v => exact absurd (h.2 _ (Memory.mem_of_lookup e)) (by simpa using ha)

/-- Canonical memories that list the same bytes are the same data. -/
theorem Memory.eq_of_lookup {size : Nat} {m m' : Memory} (h : m.wf size) (h' : m'.wf size)
    (same : ∀ a, m.lookup a = m'.lookup a) : m = m' := by
  have perm : m.Perm m' := by
    refine (List.perm_ext_iff_of_nodup ?_ ?_).mpr fun c => ?_
    · exact h.1.imp fun lt e => absurd (congrArg Prod.fst e) (by omega)
    · exact h'.1.imp fun lt e => absurd (congrArg Prod.fst e) (by omega)
    · rw [Memory.mem_iff_lookup h, Memory.mem_iff_lookup h', same]
  exact perm.eq_of_pairwise (fun a b _ _ ab ba => absurd ab (by omega)) h.1 h'.1

/-- The loop `for i in 0..255: P[i] <- f i` up to `k`. -/
theorem Memory.lookup_storeUpTo (f : Byte → Byte) (k : Nat) (m : Memory) (a : Nat) :
    (Memory.storeUpTo f k m).lookup a = if a < k then some (f (BitVec.ofNat 8 a)) else m.lookup a := by
  induction k with
  | zero => simp [Memory.storeUpTo]
  | succ k ih =>
    rw [Memory.storeUpTo, Memory.lookup_write, ih]
    by_cases h : a = k
    · subst h; simp
    · simp only [h, if_false]
      exact if_congr (by omega) rfl rfl

theorem Memory.lookup_storeAll (f : Byte → Byte) (m : Memory) (a : Nat) :
    (m.storeAll f).lookup a = if a < Config.entries then some (f (BitVec.ofNat 8 a)) else m.lookup a :=
  Memory.lookup_storeUpTo f _ m a

theorem byte_lt_entries (a : Byte) : a.toNat < Config.entries := by
  have := entries_eq
  have := a.isLt
  omega

theorem matAddr_lt_matSize (a : MatAddr) : a.toNat < Config.matSize := by
  have : Config.matSize = 128 := rfl
  have := a.isLt
  omega

/-- Inside the space the loop leaves `f` everywhere. -/
theorem Memory.lookup_storeAll_byte (f : Byte → Byte) (m : Memory) (a : Byte) :
    (m.storeAll f).lookup a.toNat = some (f a) := by
  rw [Memory.lookup_storeAll, if_pos (byte_lt_entries a), BitVec.ofNat_toNat, BitVec.setWidth_eq]

theorem Memory.wf_storeUpTo (f : Byte → Byte) {m : Memory} (h : m.wf Config.entries) {k : Nat}
    (hk : k ≤ Config.entries) : (Memory.storeUpTo f k m).wf Config.entries := by
  induction k with
  | zero => simpa [Memory.storeUpTo] using h
  | succ k ih =>
    rw [Memory.storeUpTo]
    exact Memory.wf_write (ih (by omega)) (by omega) _

theorem Memory.wf_storeAll (f : Byte → Byte) {m : Memory} (h : m.wf Config.entries) :
    (m.storeAll f).wf Config.entries :=
  Memory.wf_storeUpTo f h le_rfl

/-- After the loop nothing of the old contents is left, not even in the data (R114: "whatever they held"). -/
theorem Memory.storeAll_forgets (f : Byte → Byte) {m m' : Memory} (h : m.wf Config.entries) (h' : m'.wf Config.entries) :
    m.storeAll f = m'.storeAll f := by
  refine Memory.eq_of_lookup (Memory.wf_storeAll f h) (Memory.wf_storeAll f h') fun a => ?_
  rw [Memory.lookup_storeAll, Memory.lookup_storeAll]
  split_ifs with inside
  · rfl
  · rw [Memory.lookup_outside h (by omega), Memory.lookup_outside h' (by omega)]

/-! ### The permutation RAM through its accessors -/

@[simp] theorem State.readP_writeP (s : State) (a v b : Byte) :
    (s.writeP a v).readP b = if b = a then v else s.readP b := by
  simp only [State.readP, State.writeP_P, State.writeP_pEpoch, Memory.lookup_write, BitVec.toNat_inj]
  split_ifs <;> simp

@[simp] theorem State.readP_storeAll (s : State) (f : Byte → Byte) (a : Byte) : (s.storeAll f).readP a = f a := by
  simp [State.readP, Memory.lookup_storeAll_byte]

/-- Reading depends on `P` and on the free bytes' epoch only. -/
theorem State.readP_congr {s t : State} (hP : s.P = t.P) (he : s.pEpoch = t.pEpoch) : s.readP = t.readP := by
  funext a
  simp [State.readP, hP, he]

/-- With every entry written, the free bytes are never read. -/
theorem State.readP_of_written {s t : State} (hP : s.P = t.P) (h : s.FullyWritten) : s.readP = t.readP := by
  funext a
  obtain ⟨v, hv⟩ := Option.isSome_iff_exists.mp (h a)
  simp [State.readP, ← hP, hv]

/-- A swap exchanges what is read at its two addresses (R61). -/
theorem State.readP_swapP (s : State) (x y a : Byte) :
    (s.swapP x y).readP a = if a = y then s.readP x else if a = x then s.readP y else s.readP a := by
  simp [State.swapP]

theorem State.readP_swapP_eq_comp (s : State) (x y : Byte) : (s.swapP x y).readP = s.readP ∘ Equiv.swap x y := by
  funext a
  rw [State.readP_swapP, Function.comp_apply, Equiv.swap_apply_def]
  split_ifs <;> simp_all

/-- "A swap preserves the multiset of entries, hence the permutation property" (R61). -/
theorem State.isPermutation_swapP {s : State} (h : s.IsPermutation) (x y : Byte) : (s.swapP x y).IsPermutation := by
  rw [State.IsPermutation, State.readP_swapP_eq_comp]
  exact h.comp (Equiv.swap x y).bijective

theorem State.isPermutation_congr {s t : State} (h : s.readP = t.readP) : s.IsPermutation ↔ t.IsPermutation := by
  rw [State.IsPermutation, State.IsPermutation, h]

/-- A permutation written whole is one under any free bytes. -/
theorem State.isPermutation_of_written {s t : State} (h : s.IsPermutation) (written : s.FullyWritten) (hP : s.P = t.P) :
    t.IsPermutation :=
  (State.isPermutation_congr (State.readP_of_written hP written)).mp h

theorem State.fullyWritten_writeP {s : State} (h : s.FullyWritten) (a v : Byte) : (s.writeP a v).FullyWritten := by
  intro b
  rw [State.writeP_P, Memory.lookup_write]
  split_ifs
  · rfl
  · exact h b

theorem State.fullyWritten_swapP {s : State} (h : s.FullyWritten) (x y : Byte) : (s.swapP x y).FullyWritten :=
  State.fullyWritten_writeP (State.fullyWritten_writeP h x _) y _

theorem State.fullyWritten_storeAll (s : State) (f : Byte → Byte) : (s.storeAll f).FullyWritten := by
  intro a
  rw [State.storeAll_P, Memory.lookup_storeAll_byte]
  rfl

theorem State.fullyWritten_congr {s t : State} (h : s.P = t.P) : s.FullyWritten ↔ t.FullyWritten := by
  rw [State.FullyWritten, State.FullyWritten, h]

theorem State.wf_writeP {s : State} (h : s.P.wf Config.entries) (a v : Byte) : (s.writeP a v).P.wf Config.entries :=
  Memory.wf_write h (byte_lt_entries a) v

theorem State.wf_swapP {s : State} (h : s.P.wf Config.entries) (x y : Byte) : (s.swapP x y).P.wf Config.entries :=
  State.wf_writeP (State.wf_writeP h x _) y _

/-! ### The material space -/

theorem matAddress_toNat (b : BitVec 1) (i : BitVec 6) : (matAddress b i).toNat = 64 * b.toNat + i.toNat := by
  rw [matAddress, BitVec.toNat_append, ← Nat.shiftLeft_add_eq_or_of_lt i.isLt, Nat.shiftLeft_eq, Nat.mul_comm]

@[simp] theorem matAddress_inj (b b' : BitVec 1) (i i' : BitVec 6) :
    matAddress b i = matAddress b' i' ↔ b = b' ∧ i = i' := by
  constructor
  · intro h
    have same := congrArg BitVec.toNat h
    rw [matAddress_toNat, matAddress_toNat] at same
    have := i.isLt
    have := i'.isLt
    exact ⟨BitVec.eq_of_toNat_eq (by omega), BitVec.eq_of_toNat_eq (by omega)⟩
  · rintro ⟨rfl, rfl⟩
    rfl

/-- What the host sets is what `MatRead` returns; every other byte stays (R55). -/
theorem State.matRead_setMat (s : State) (b b' : BitVec 1) (i i' : BitVec 6) (v : Byte) :
    (s.setMat (matAddress b i) v).matRead b' i' = if b' = b ∧ i' = i then v else s.matRead b' i' := by
  simp only [State.matRead, State.setMat_MAT, Memory.lookup_write, BitVec.toNat_inj, matAddress_inj]
  split_ifs <;> simp

theorem State.matRead_congr {s t : State} (h : s.MAT = t.MAT) : s.matRead = t.matRead := by
  funext b i
  simp [State.matRead, h]

theorem State.wf_setMat {s : State} (h : s.MAT.wf Config.matSize) (a : MatAddr) (v : Byte) :
    (s.setMat a v).MAT.wf Config.matSize :=
  Memory.wf_write h (matAddr_lt_matSize a) v

end Sys2Proof.Machine
end

