-- ==== Sys2Proof/Laws/KeySchedule.lean ====
section
/-! SUPPORT. What a round, a pass and a whole initialization can do (R110 to R121). -/

namespace Sys2Proof.Machine

theorem State.ksaPos_eq (s : State) : s.ksaPos = BitVec.ofNat 8 s.M.toNat := by
  apply BitVec.eq_of_toNat_eq
  simp [State.ksaPos]

theorem lengthOk_iff (L : Byte) : lengthOk L = true ↔ 16 ≤ L.toNat ∧ L.toNat ≤ 64 := by
  rw [lengthOk, Bool.and_eq_true, decide_eq_true_iff, decide_eq_true_iff]
  rfl

theorem lengthOk_zero : lengthOk 0x00#8 = false := by decide

/-! ### One round -/

theorem State.readP_ksaRound (s : State) (bank : BitVec 1) (L a : Byte) :
    (s.ksaRound bank L).readP a =
      if a = s.ksaNewS bank then s.readP s.ksaPos else if a = s.ksaPos then s.readP (s.ksaNewS bank) else s.readP a :=
  State.readP_swapP s _ _ a

theorem State.isPermutation_ksaRound {s : State} (h : s.IsPermutation) (bank : BitVec 1) (L : Byte) :
    (s.ksaRound bank L).IsPermutation :=
  State.isPermutation_swapP h s.ksaPos (s.ksaNewS bank)

theorem State.fullyWritten_ksaRound {s : State} (h : s.FullyWritten) (bank : BitVec 1) (L : Byte) :
    (s.ksaRound bank L).FullyWritten :=
  State.fullyWritten_swapP h s.ksaPos (s.ksaNewS bank)

theorem State.wf_ksaRound {s : State} (h : s.P.wf Config.entries) (bank : BitVec 1) (L : Byte) :
    (s.ksaRound bank L).P.wf Config.entries :=
  State.wf_swapP h s.ksaPos (s.ksaNewS bank)

/-- `J` counts modulo the length (R111). -/
theorem nextJ_toNat {J : BitVec 6} {L : Byte} (hL : lengthOk L = true) (hJ : J.toNat < L.toNat) :
    (nextJ J L).toNat = (J.toNat + 1) % L.toNat := by
  obtain ⟨low, high⟩ := (lengthOk_iff L).mp hL
  unfold nextJ byteCount
  split_ifs with wrap
  · rw [wrap, Nat.mod_self]; rfl
  · rw [Nat.mod_eq_of_lt (by omega), BitVec.toNat_add]
    simp only [BitVec.toNat_ofNat]
    omega

/-- With every entry written, a round depends neither on the free bytes nor on `N`. -/
theorem State.ksaRound_withEpoch {s : State} (written : s.FullyWritten) (bank : BitVec 1) (L : Byte) (e : Nat) (n : Byte) :
    ({ s with pEpoch := e, N := n } : State).ksaRound bank L = { s.ksaRound bank L with pEpoch := e, N := n } := by
  have read : ({ s with pEpoch := e, N := n } : State).readP = s.readP :=
    (State.readP_of_written (s := s) (t := { s with pEpoch := e, N := n }) rfl written).symm
  have newS : ({ s with pEpoch := e, N := n } : State).ksaNewS bank = s.ksaNewS bank := by
    simp only [State.ksaNewS, State.ksaIndex, read]
    rfl
  simp only [State.ksaRound, newS, State.swapP, read]
  rfl

/-! ### The loop of a pass -/

theorem State.M_toNat_ksaRound {s : State} (h : s.M.toNat < 768) (bank : BitVec 1) (L : Byte) :
    (s.ksaRound bank L).M.toNat = s.M.toNat + 1 := by
  simp only [State.ksaRound_M, BitVec.toNat_add, BitVec.toNat_ofNat]
  omega

theorem State.ksaRounds_eq_iterate (bank : BitVec 1) (L : Byte) (k : Nat) (s : State) :
    State.ksaRounds bank L k s = (fun t => t.ksaRound bank L)^[k] s := by
  induction k with
  | zero => rfl
  | succ k ih => rw [State.ksaRounds, ih, Function.iterate_succ_apply']

/-- The first round first. -/
theorem State.ksaRounds_succ (bank : BitVec 1) (L : Byte) (k : Nat) (s : State) :
    State.ksaRounds bank L (k + 1) s = State.ksaRounds bank L k (s.ksaRound bank L) := by
  rw [State.ksaRounds_eq_iterate, State.ksaRounds_eq_iterate, Function.iterate_succ_apply]

/-- What every round keeps, the rounds of a pass keep. -/
theorem State.ksaRounds_induct (bank : BitVec 1) (L : Byte) (Q : State → Prop)
    (keep : ∀ t, Q t → Q (t.ksaRound bank L)) (k : Nat) (s : State) (h : Q s) : Q (State.ksaRounds bank L k s) := by
  induction k with
  | zero => exact h
  | succ k ih => exact keep _ ih

/-- A pass writes `P`, `S`, `M` and `J` only. -/
theorem State.ksaRounds_frame (bank : BitVec 1) (L : Byte) (k : Nat) (s : State) :
    State.ksaRounds bank L k s =
      { s with P := (State.ksaRounds bank L k s).P, S := (State.ksaRounds bank L k s).S,
               M := (State.ksaRounds bank L k s).M, J := (State.ksaRounds bank L k s).J } := by
  refine State.ksaRounds_induct bank L (fun t => t = { s with P := t.P, S := t.S, M := t.M, J := t.J }) ?_ k s rfl
  intro t h
  rw [h]
  rfl

/-- `M` counts the rounds (R22). -/
theorem State.ksaRounds_M (bank : BitVec 1) (L : Byte) (k : Nat) (s : State) (h : s.M.toNat + k ≤ 768) :
    (State.ksaRounds bank L k s).M.toNat = s.M.toNat + k := by
  induction k with
  | zero => rfl
  | succ k ih =>
    have before := ih (by omega)
    rw [State.ksaRounds, State.M_toNat_ksaRound (by omega), before]
    omega

/-- `J = m mod L` all through a pass (R111). -/
theorem State.ksaRounds_J (bank : BitVec 1) {L : Byte} (hL : lengthOk L = true) (k : Nat) (s : State)
    (hJ : s.J.toNat = s.M.toNat % L.toNat) :
    (State.ksaRounds bank L k s).J.toNat = (s.M.toNat + k) % L.toNat := by
  obtain ⟨low, -⟩ := (lengthOk_iff L).mp hL
  induction k with
  | zero => exact hJ
  | succ k ih =>
    have below : (State.ksaRounds bank L k s).J.toNat < L.toNat := ih ▸ Nat.mod_lt _ (by omega)
    rw [State.ksaRounds, State.ksaRound_J, nextJ_toNat hL below, ih, Nat.mod_add_mod]
    rfl

/-! ### One pass -/

theorem State.ksaRun_frame (s : State) (bank : BitVec 1) (L : Byte) :
    s.ksaRun bank L =
      { s with P := (s.ksaRun bank L).P, S := (s.ksaRun bank L).S, M := (s.ksaRun bank L).M, J := (s.ksaRun bank L).J } :=
  State.ksaRounds_frame bank L _ _

theorem State.ksaRun_eq_iterate (s : State) (bank : BitVec 1) (L : Byte) :
    s.ksaRun bank L = (fun t => t.ksaRound bank L)^[768] { s with M := 0#10, J := 0#6 } := by
  rw [State.ksaRun, rounds_eq, State.ksaRounds_eq_iterate]

theorem State.ksaRun_M (s : State) (bank : BitVec 1) (L : Byte) : (s.ksaRun bank L).M = 768#10 := by
  apply BitVec.eq_of_toNat_eq
  rw [State.ksaRun, rounds_eq, State.ksaRounds_M _ _ _ _ (by simp)]
  rfl

theorem State.ksaRun_J (s : State) (bank : BitVec 1) {L : Byte} (hL : lengthOk L = true) :
    (s.ksaRun bank L).J.toNat = 768 % L.toNat := by
  rw [State.ksaRun, rounds_eq, State.ksaRounds_J bank hL _ _ (by simp)]
  simp

theorem State.isPermutation_ksaRun {s : State} (h : s.IsPermutation) (bank : BitVec 1) (L : Byte) :
    (s.ksaRun bank L).IsPermutation :=
  State.ksaRounds_induct bank L State.IsPermutation (fun _ ht => State.isPermutation_ksaRound ht bank L) _ _ h

theorem State.fullyWritten_ksaRun {s : State} (h : s.FullyWritten) (bank : BitVec 1) (L : Byte) :
    (s.ksaRun bank L).FullyWritten :=
  State.ksaRounds_induct bank L State.FullyWritten (fun _ ht => State.fullyWritten_ksaRound ht bank L) _ _ h

theorem State.wf_ksaRun {s : State} (h : s.P.wf Config.entries) (bank : BitVec 1) (L : Byte) :
    (s.ksaRun bank L).P.wf Config.entries :=
  State.ksaRounds_induct bank L (fun t => t.P.wf Config.entries) (fun _ ht => State.wf_ksaRound ht bank L) _ _ h

@[simp] theorem State.ksaRun_pEpoch (s : State) (bank : BitVec 1) (L : Byte) : (s.ksaRun bank L).pEpoch = s.pEpoch := by
  rw [State.ksaRun_frame]

@[simp] theorem State.ksaRun_N (s : State) (bank : BitVec 1) (L : Byte) : (s.ksaRun bank L).N = s.N := by
  rw [State.ksaRun_frame]

@[simp] theorem State.ksaRun_PASS (s : State) (bank : BitVec 1) (L : Byte) : (s.ksaRun bank L).PASS = s.PASS := by
  rw [State.ksaRun_frame]

@[simp] theorem State.ksaRun_KL (s : State) (bank : BitVec 1) (L : Byte) : (s.ksaRun bank L).KL = s.KL := by
  rw [State.ksaRun_frame]

@[simp] theorem State.ksaRun_IL (s : State) (bank : BitVec 1) (L : Byte) : (s.ksaRun bank L).IL = s.IL := by
  rw [State.ksaRun_frame]

@[simp] theorem State.ksaRun_X (s : State) (bank : BitVec 1) (L : Byte) : (s.ksaRun bank L).X = s.X := by
  rw [State.ksaRun_frame]

@[simp] theorem State.ksaRun_PH (s : State) (bank : BitVec 1) (L : Byte) : (s.ksaRun bank L).PH = s.PH := by
  rw [State.ksaRun_frame]

@[simp] theorem State.ksaRun_V (s : State) (bank : BitVec 1) (L : Byte) : (s.ksaRun bank L).V = s.V := by
  rw [State.ksaRun_frame]

@[simp] theorem State.ksaRun_ERR (s : State) (bank : BitVec 1) (L : Byte) : (s.ksaRun bank L).ERR = s.ERR := by
  rw [State.ksaRun_frame]

@[simp] theorem State.ksaRun_ERRLEN (s : State) (bank : BitVec 1) (L : Byte) : (s.ksaRun bank L).ERRLEN = s.ERRLEN := by
  rw [State.ksaRun_frame]

@[simp] theorem State.ksaRun_ILL (s : State) (bank : BitVec 1) (L : Byte) : (s.ksaRun bank L).ILL = s.ILL := by
  rw [State.ksaRun_frame]

@[simp] theorem State.ksaRun_MAT (s : State) (bank : BitVec 1) (L : Byte) : (s.ksaRun bank L).MAT = s.MAT := by
  rw [State.ksaRun_frame]

@[simp] theorem State.ksaRun_host (s : State) (bank : BitVec 1) (L : Byte) : (s.ksaRun bank L).host = s.host := by
  rw [State.ksaRun_frame]

@[simp] theorem State.ksaRun_outQ (s : State) (bank : BitVec 1) (L : Byte) : (s.ksaRun bank L).outQ = s.outQ := by
  rw [State.ksaRun_frame]

@[simp] theorem State.ksaRun_dout (s : State) (bank : BitVec 1) (L : Byte) : (s.ksaRun bank L).dout = s.dout := by
  rw [State.ksaRun_frame]

@[simp] theorem State.ksaRun_illSeen (s : State) (bank : BitVec 1) (L : Byte) : (s.ksaRun bank L).illSeen = s.illSeen := by
  rw [State.ksaRun_frame]

/-! ### What a pass reads -/

theorem nextJ_lt {J : BitVec 6} {L : Byte} (hL : lengthOk L = true) (hJ : J.toNat < L.toNat) : (nextJ J L).toNat < L.toNat := by
  obtain ⟨low, -⟩ := (lengthOk_iff L).mp hL
  rw [nextJ_toNat hL hJ]
  exact Nat.mod_lt _ (by omega)

/-- The rounds of a pass read the material only below the length (R55). -/
theorem State.ksaRounds_withMat (bank : BitVec 1) {L : Byte} (hL : lengthOk L = true) (banks : Memory) (k : Nat) (s : State)
    (hJ : s.J.toNat < L.toNat)
    (agree : ∀ idx : BitVec 6, idx.toNat < L.toNat → ({ s with MAT := banks } : State).matRead bank idx = s.matRead bank idx) :
    State.ksaRounds bank L k { s with MAT := banks } = { State.ksaRounds bank L k s with MAT := banks } := by
  induction k generalizing s with
  | zero => rfl
  | succ k ih =>
    have same : ({ s with MAT := banks } : State).ksaNewS bank = s.ksaNewS bank := by
      show s.readP (s.S + s.readP s.ksaPos + ({ s with MAT := banks } : State).matRead bank s.J) = _
      rw [agree _ hJ]
      rfl
    have round : ({ s with MAT := banks } : State).ksaRound bank L = { s.ksaRound bank L with MAT := banks } := by
      simp only [State.ksaRound, same]
      rfl
    rw [State.ksaRounds_succ, State.ksaRounds_succ, round]
    exact ih (s.ksaRound bank L) (nextJ_lt hL hJ) agree

/-- With every entry written, the rounds of a pass depend neither on the free bytes nor on `N`. -/
theorem State.ksaRounds_withEpoch (bank : BitVec 1) (L : Byte) (e : Nat) (n : Byte) (k : Nat) (s : State)
    (written : s.FullyWritten) :
    State.ksaRounds bank L k { s with pEpoch := e, N := n } =
      { State.ksaRounds bank L k s with pEpoch := e, N := n } := by
  induction k with
  | zero => rfl
  | succ k ih =>
    have full : (State.ksaRounds bank L k s).FullyWritten :=
      State.ksaRounds_induct bank L State.FullyWritten (fun _ ht => State.fullyWritten_ksaRound ht bank L) _ _ written
    rw [State.ksaRounds, ih, State.ksaRounds]
    generalize State.ksaRounds bank L k s = u at full
    exact State.ksaRound_withEpoch full bank L e n

theorem State.ksaRun_withMat (bank : BitVec 1) {L : Byte} (hL : lengthOk L = true) (banks : Memory) (s : State)
    (agree : ∀ idx : BitVec 6, idx.toNat < L.toNat → ({ s with MAT := banks } : State).matRead bank idx = s.matRead bank idx) :
    ({ s with MAT := banks } : State).ksaRun bank L = { s.ksaRun bank L with MAT := banks } := by
  obtain ⟨low, -⟩ := (lengthOk_iff L).mp hL
  exact State.ksaRounds_withMat bank hL banks _ { s with M := 0#10, J := 0#6 } (by rw [BitVec.toNat_ofNat]; omega) agree

theorem State.ksaRun_withEpoch {s : State} (written : s.FullyWritten) (bank : BitVec 1) (L : Byte) (e : Nat) (n : Byte) :
    ({ s with pEpoch := e, N := n } : State).ksaRun bank L = { s.ksaRun bank L with pEpoch := e, N := n } :=
  State.ksaRounds_withEpoch bank L e n _ { s with M := 0#10, J := 0#6 } written

/-! ### A whole initialization -/

@[simp] theorem State.readP_completeInit (t : State) : t.completeInit.readP = t.readP := (rfl)

theorem State.isPermutation_completeInit {t : State} (h : t.IsPermutation) : t.completeInit.IsPermutation := h

theorem State.fullyWritten_completeInit {t : State} (h : t.FullyWritten) : t.completeInit.FullyWritten := h

/-- The status word of a successful initialization (R91). -/
theorem State.status_completeInit {t : State} (err : t.ERR = false) (len : t.ERRLEN = 0x00#8) (ill : t.ILL = false) :
    t.completeInit.status = 0x0002#16 := by
  simp only [State.status, State.strm, State.busy, State.completeInit_ERRLEN, State.completeInit_PH,
    State.completeInit_ILL, State.completeInit_ERR, State.completeInit_V, err, len, ill]
  decide

/-- The state in which pass 0 starts: accepted, filled, `PH = KSA`, `PASS = 0` (R115, R114, R118). -/
def State.filled (s : State) (x : Bool) (klen ivlen : Byte) : State :=
  { (s.acceptInit x klen ivlen).identityFill with PH := .ksa, PASS := 0#2 }

/-- The state after the key pass. -/
def State.keyed (s : State) (x : Bool) (klen ivlen : Byte) : State := (s.filled x klen ivlen).ksaRun 0#1 klen

/-- The state after the IV pass from `t`. -/
def State.ivPass (t : State) (ivlen : Byte) : State := ({ t with PASS := 1#2 } : State).ksaRun 1#1 ivlen

/-- The state after the second key pass from `t`. -/
def State.keyAgain (t : State) (klen : Byte) : State := ({ t with PASS := 2#2 } : State).ksaRun 0#1 klen

@[simp] theorem State.filled_P (s : State) (x : Bool) (klen ivlen : Byte) : (s.filled x klen ivlen).P = s.P.storeAll id := (rfl)
@[simp] theorem State.filled_pEpoch (s : State) (x : Bool) (klen ivlen : Byte) : (s.filled x klen ivlen).pEpoch = s.pEpoch := (rfl)
@[simp] theorem State.filled_S (s : State) (x : Bool) (klen ivlen : Byte) : (s.filled x klen ivlen).S = 0x00#8 := (rfl)
@[simp] theorem State.filled_N (s : State) (x : Bool) (klen ivlen : Byte) : (s.filled x klen ivlen).N = s.N := (rfl)
@[simp] theorem State.filled_M (s : State) (x : Bool) (klen ivlen : Byte) : (s.filled x klen ivlen).M = 0#10 := (rfl)
@[simp] theorem State.filled_J (s : State) (x : Bool) (klen ivlen : Byte) : (s.filled x klen ivlen).J = 0#6 := (rfl)
@[simp] theorem State.filled_PASS (s : State) (x : Bool) (klen ivlen : Byte) : (s.filled x klen ivlen).PASS = 0#2 := (rfl)
@[simp] theorem State.filled_KL (s : State) (x : Bool) (klen ivlen : Byte) : (s.filled x klen ivlen).KL = klen := (rfl)
@[simp] theorem State.filled_IL (s : State) (x : Bool) (klen ivlen : Byte) : (s.filled x klen ivlen).IL = ivlen := (rfl)
@[simp] theorem State.filled_X (s : State) (x : Bool) (klen ivlen : Byte) : (s.filled x klen ivlen).X = x := (rfl)
@[simp] theorem State.filled_PH (s : State) (x : Bool) (klen ivlen : Byte) : (s.filled x klen ivlen).PH = .ksa := (rfl)
@[simp] theorem State.filled_V (s : State) (x : Bool) (klen ivlen : Byte) : (s.filled x klen ivlen).V = false := (rfl)
@[simp] theorem State.filled_ERR (s : State) (x : Bool) (klen ivlen : Byte) : (s.filled x klen ivlen).ERR = false := (rfl)
@[simp] theorem State.filled_ERRLEN (s : State) (x : Bool) (klen ivlen : Byte) : (s.filled x klen ivlen).ERRLEN = 0x00#8 := (rfl)
@[simp] theorem State.filled_ILL (s : State) (x : Bool) (klen ivlen : Byte) : (s.filled x klen ivlen).ILL = false := (rfl)
@[simp] theorem State.filled_MAT (s : State) (x : Bool) (klen ivlen : Byte) : (s.filled x klen ivlen).MAT = s.MAT := (rfl)
@[simp] theorem State.filled_host (s : State) (x : Bool) (klen ivlen : Byte) : (s.filled x klen ivlen).host = s.host := (rfl)
@[simp] theorem State.filled_outQ (s : State) (x : Bool) (klen ivlen : Byte) : (s.filled x klen ivlen).outQ = s.outQ := (rfl)
@[simp] theorem State.filled_dout (s : State) (x : Bool) (klen ivlen : Byte) : (s.filled x klen ivlen).dout = s.dout := (rfl)
@[simp] theorem State.filled_illSeen (s : State) (x : Bool) (klen ivlen : Byte) : (s.filled x klen ivlen).illSeen = s.illSeen := (rfl)

@[simp] theorem State.keyed_pEpoch (s : State) (x : Bool) (klen ivlen : Byte) : (s.keyed x klen ivlen).pEpoch = s.pEpoch :=
  State.ksaRun_pEpoch _ _ _
@[simp] theorem State.keyed_N (s : State) (x : Bool) (klen ivlen : Byte) : (s.keyed x klen ivlen).N = s.N :=
  State.ksaRun_N _ _ _
@[simp] theorem State.keyed_PASS (s : State) (x : Bool) (klen ivlen : Byte) : (s.keyed x klen ivlen).PASS = 0#2 :=
  State.ksaRun_PASS _ _ _
@[simp] theorem State.keyed_KL (s : State) (x : Bool) (klen ivlen : Byte) : (s.keyed x klen ivlen).KL = klen :=
  State.ksaRun_KL _ _ _
@[simp] theorem State.keyed_IL (s : State) (x : Bool) (klen ivlen : Byte) : (s.keyed x klen ivlen).IL = ivlen :=
  State.ksaRun_IL _ _ _
@[simp] theorem State.keyed_X (s : State) (x : Bool) (klen ivlen : Byte) : (s.keyed x klen ivlen).X = x :=
  State.ksaRun_X _ _ _
@[simp] theorem State.keyed_PH (s : State) (x : Bool) (klen ivlen : Byte) : (s.keyed x klen ivlen).PH = .ksa :=
  State.ksaRun_PH _ _ _
@[simp] theorem State.keyed_V (s : State) (x : Bool) (klen ivlen : Byte) : (s.keyed x klen ivlen).V = false :=
  State.ksaRun_V _ _ _
@[simp] theorem State.keyed_ERR (s : State) (x : Bool) (klen ivlen : Byte) : (s.keyed x klen ivlen).ERR = false :=
  State.ksaRun_ERR _ _ _
@[simp] theorem State.keyed_ERRLEN (s : State) (x : Bool) (klen ivlen : Byte) : (s.keyed x klen ivlen).ERRLEN = 0x00#8 :=
  State.ksaRun_ERRLEN _ _ _
@[simp] theorem State.keyed_ILL (s : State) (x : Bool) (klen ivlen : Byte) : (s.keyed x klen ivlen).ILL = false :=
  State.ksaRun_ILL _ _ _
@[simp] theorem State.keyed_MAT (s : State) (x : Bool) (klen ivlen : Byte) : (s.keyed x klen ivlen).MAT = s.MAT :=
  State.ksaRun_MAT _ _ _
@[simp] theorem State.keyed_host (s : State) (x : Bool) (klen ivlen : Byte) : (s.keyed x klen ivlen).host = s.host :=
  State.ksaRun_host _ _ _
@[simp] theorem State.keyed_outQ (s : State) (x : Bool) (klen ivlen : Byte) : (s.keyed x klen ivlen).outQ = s.outQ :=
  State.ksaRun_outQ _ _ _
@[simp] theorem State.keyed_dout (s : State) (x : Bool) (klen ivlen : Byte) : (s.keyed x klen ivlen).dout = s.dout :=
  State.ksaRun_dout _ _ _
@[simp] theorem State.keyed_illSeen (s : State) (x : Bool) (klen ivlen : Byte) : (s.keyed x klen ivlen).illSeen = s.illSeen :=
  State.ksaRun_illSeen _ _ _

@[simp] theorem State.ivPass_pEpoch (t : State) (ivlen : Byte) : (t.ivPass ivlen).pEpoch = t.pEpoch :=
  State.ksaRun_pEpoch _ _ _
@[simp] theorem State.ivPass_N (t : State) (ivlen : Byte) : (t.ivPass ivlen).N = t.N :=
  State.ksaRun_N _ _ _
@[simp] theorem State.ivPass_PASS (t : State) (ivlen : Byte) : (t.ivPass ivlen).PASS = 1#2 :=
  State.ksaRun_PASS _ _ _
@[simp] theorem State.ivPass_KL (t : State) (ivlen : Byte) : (t.ivPass ivlen).KL = t.KL :=
  State.ksaRun_KL _ _ _
@[simp] theorem State.ivPass_IL (t : State) (ivlen : Byte) : (t.ivPass ivlen).IL = t.IL :=
  State.ksaRun_IL _ _ _
@[simp] theorem State.ivPass_X (t : State) (ivlen : Byte) : (t.ivPass ivlen).X = t.X :=
  State.ksaRun_X _ _ _
@[simp] theorem State.ivPass_PH (t : State) (ivlen : Byte) : (t.ivPass ivlen).PH = t.PH :=
  State.ksaRun_PH _ _ _
@[simp] theorem State.ivPass_V (t : State) (ivlen : Byte) : (t.ivPass ivlen).V = t.V :=
  State.ksaRun_V _ _ _
@[simp] theorem State.ivPass_ERR (t : State) (ivlen : Byte) : (t.ivPass ivlen).ERR = t.ERR :=
  State.ksaRun_ERR _ _ _
@[simp] theorem State.ivPass_ERRLEN (t : State) (ivlen : Byte) : (t.ivPass ivlen).ERRLEN = t.ERRLEN :=
  State.ksaRun_ERRLEN _ _ _
@[simp] theorem State.ivPass_ILL (t : State) (ivlen : Byte) : (t.ivPass ivlen).ILL = t.ILL :=
  State.ksaRun_ILL _ _ _
@[simp] theorem State.ivPass_MAT (t : State) (ivlen : Byte) : (t.ivPass ivlen).MAT = t.MAT :=
  State.ksaRun_MAT _ _ _
@[simp] theorem State.ivPass_host (t : State) (ivlen : Byte) : (t.ivPass ivlen).host = t.host :=
  State.ksaRun_host _ _ _
@[simp] theorem State.ivPass_outQ (t : State) (ivlen : Byte) : (t.ivPass ivlen).outQ = t.outQ :=
  State.ksaRun_outQ _ _ _
@[simp] theorem State.ivPass_dout (t : State) (ivlen : Byte) : (t.ivPass ivlen).dout = t.dout :=
  State.ksaRun_dout _ _ _
@[simp] theorem State.ivPass_illSeen (t : State) (ivlen : Byte) : (t.ivPass ivlen).illSeen = t.illSeen :=
  State.ksaRun_illSeen _ _ _

@[simp] theorem State.keyAgain_pEpoch (t : State) (klen : Byte) : (t.keyAgain klen).pEpoch = t.pEpoch :=
  State.ksaRun_pEpoch _ _ _
@[simp] theorem State.keyAgain_N (t : State) (klen : Byte) : (t.keyAgain klen).N = t.N :=
  State.ksaRun_N _ _ _
@[simp] theorem State.keyAgain_PASS (t : State) (klen : Byte) : (t.keyAgain klen).PASS = 2#2 :=
  State.ksaRun_PASS _ _ _
@[simp] theorem State.keyAgain_KL (t : State) (klen : Byte) : (t.keyAgain klen).KL = t.KL :=
  State.ksaRun_KL _ _ _
@[simp] theorem State.keyAgain_IL (t : State) (klen : Byte) : (t.keyAgain klen).IL = t.IL :=
  State.ksaRun_IL _ _ _
@[simp] theorem State.keyAgain_X (t : State) (klen : Byte) : (t.keyAgain klen).X = t.X :=
  State.ksaRun_X _ _ _
@[simp] theorem State.keyAgain_PH (t : State) (klen : Byte) : (t.keyAgain klen).PH = t.PH :=
  State.ksaRun_PH _ _ _
@[simp] theorem State.keyAgain_V (t : State) (klen : Byte) : (t.keyAgain klen).V = t.V :=
  State.ksaRun_V _ _ _
@[simp] theorem State.keyAgain_ERR (t : State) (klen : Byte) : (t.keyAgain klen).ERR = t.ERR :=
  State.ksaRun_ERR _ _ _
@[simp] theorem State.keyAgain_ERRLEN (t : State) (klen : Byte) : (t.keyAgain klen).ERRLEN = t.ERRLEN :=
  State.ksaRun_ERRLEN _ _ _
@[simp] theorem State.keyAgain_ILL (t : State) (klen : Byte) : (t.keyAgain klen).ILL = t.ILL :=
  State.ksaRun_ILL _ _ _
@[simp] theorem State.keyAgain_MAT (t : State) (klen : Byte) : (t.keyAgain klen).MAT = t.MAT :=
  State.ksaRun_MAT _ _ _
@[simp] theorem State.keyAgain_host (t : State) (klen : Byte) : (t.keyAgain klen).host = t.host :=
  State.ksaRun_host _ _ _
@[simp] theorem State.keyAgain_outQ (t : State) (klen : Byte) : (t.keyAgain klen).outQ = t.outQ :=
  State.ksaRun_outQ _ _ _
@[simp] theorem State.keyAgain_dout (t : State) (klen : Byte) : (t.keyAgain klen).dout = t.dout :=
  State.ksaRun_dout _ _ _
@[simp] theorem State.keyAgain_illSeen (t : State) (klen : Byte) : (t.keyAgain klen).illSeen = t.illSeen :=
  State.ksaRun_illSeen _ _ _

@[simp] theorem State.readP_filled (s : State) (x : Bool) (klen ivlen a : Byte) : (s.filled x klen ivlen).readP a = a :=
  State.readP_storeAll (s.acceptInit x klen ivlen) id a

theorem State.isPermutation_filled (s : State) (x : Bool) (klen ivlen : Byte) : (s.filled x klen ivlen).IsPermutation := by
  have : (s.filled x klen ivlen).readP = id := funext fun a => State.readP_filled s x klen ivlen a
  rw [State.IsPermutation, this]
  exact Function.bijective_id

theorem State.fullyWritten_filled (s : State) (x : Bool) (klen ivlen : Byte) : (s.filled x klen ivlen).FullyWritten :=
  State.fullyWritten_storeAll (s.acceptInit x klen ivlen) id

theorem State.isPermutation_keyed (s : State) (x : Bool) (klen ivlen : Byte) : (s.keyed x klen ivlen).IsPermutation :=
  State.isPermutation_ksaRun (State.isPermutation_filled s x klen ivlen) _ _

theorem State.fullyWritten_keyed (s : State) (x : Bool) (klen ivlen : Byte) : (s.keyed x klen ivlen).FullyWritten :=
  State.fullyWritten_ksaRun (State.fullyWritten_filled s x klen ivlen) _ _

theorem State.isPermutation_ivPass {t : State} (h : t.IsPermutation) (ivlen : Byte) : (t.ivPass ivlen).IsPermutation :=
  State.isPermutation_ksaRun (s := { t with PASS := 1#2 }) h _ _

theorem State.fullyWritten_ivPass {t : State} (h : t.FullyWritten) (ivlen : Byte) : (t.ivPass ivlen).FullyWritten :=
  State.fullyWritten_ksaRun (s := { t with PASS := 1#2 }) h _ _

theorem State.isPermutation_keyAgain {t : State} (h : t.IsPermutation) (klen : Byte) : (t.keyAgain klen).IsPermutation :=
  State.isPermutation_ksaRun (s := { t with PASS := 2#2 }) h _ _

theorem State.fullyWritten_keyAgain {t : State} (h : t.FullyWritten) (klen : Byte) : (t.keyAgain klen).FullyWritten :=
  State.fullyWritten_ksaRun (s := { t with PASS := 2#2 }) h _ _

@[simp] theorem State.keyed_M (s : State) (x : Bool) (klen ivlen : Byte) : (s.keyed x klen ivlen).M = 768#10 :=
  State.ksaRun_M _ _ _

@[simp] theorem State.ivPass_M (t : State) (ivlen : Byte) : (t.ivPass ivlen).M = 768#10 := State.ksaRun_M _ _ _

@[simp] theorem State.keyAgain_M (t : State) (klen : Byte) : (t.keyAgain klen).M = 768#10 := State.ksaRun_M _ _ _

theorem State.keyed_J (s : State) (x : Bool) {klen : Byte} (ivlen : Byte) (hk : lengthOk klen = true) :
    (s.keyed x klen ivlen).J.toNat = 768 % klen.toNat :=
  State.ksaRun_J _ _ hk

theorem State.ivPass_J (t : State) {ivlen : Byte} (hi : lengthOk ivlen = true) :
    (t.ivPass ivlen).J.toNat = 768 % ivlen.toNat :=
  State.ksaRun_J _ _ hi

theorem State.keyAgain_J (t : State) {klen : Byte} (hk : lengthOk klen = true) :
    (t.keyAgain klen).J.toNat = 768 % klen.toNat :=
  State.ksaRun_J _ _ hk

theorem State.runPass_key (s : State) {p : BitVec 2} (hp : p ≠ 1#2) :
    s.runPass p = if lengthOk s.KL then .ok (({ s with PASS := p } : State).ksaRun 0#1 s.KL)
      else .error (({ s with PASS := p } : State).raiseInvalidSize s.KL) := by
  simp [State.runPass, passBank, State.passLength, hp, State.ksaPass]

theorem State.runPass_iv (s : State) :
    s.runPass 1#2 = if lengthOk s.IL then .ok (s.ivPass s.IL)
      else .error (({ s with PASS := 1#2 } : State).raiseInvalidSize s.IL) := by
  simp [State.runPass, passBank, State.passLength, State.ksaPass, State.ivPass]

/-- The whole of `INIT` and `INIT3` by cases on the two lengths (R116, R117, R171): the one fact that says everything an
initialization can do. -/
theorem State.initCommand_eq (s : State) (x : Bool) (klen ivlen : Byte) :
    s.initCommand x klen ivlen =
      if lengthOk klen = false then (s.filled x klen ivlen).raiseInvalidSize klen
      else if ivlen = 0x00#8 then
        (if x then (s.keyed x klen ivlen).keyAgain klen else s.keyed x klen ivlen).completeInit
      else if lengthOk ivlen = false then
        ({ s.keyed x klen ivlen with PASS := 1#2 } : State).raiseInvalidSize ivlen
      else
        (if x then ((s.keyed x klen ivlen).ivPass ivlen).keyAgain klen
          else (s.keyed x klen ivlen).ivPass ivlen).completeInit := by
  unfold State.initCommand State.runPasses
  rw [State.runPass_key _ (by decide)]
  change (match (match (if lengthOk klen then .ok (s.keyed x klen ivlen)
    else .error ((s.filled x klen ivlen).raiseInvalidSize klen) : Except State State) with
    | .error e => .error e
    | .ok s0 => match (if s0.IL ≠ 0x00#8 then s0.runPass 1#2 else .ok s0) with
      | .error e => .error e
      | .ok s1 => if s1.X then s1.runPass 2#2 else .ok s1 : Except State State) with
    | .ok t => t.completeInit
    | .error t => t) = _
  cases hk : lengthOk klen with
  | false => rfl
  | true =>
    simp only [if_true, State.keyed_IL, Bool.true_eq_false, if_false]
    by_cases hi : ivlen = 0x00#8
    · simp only [hi, ne_eq, not_true_eq_false, if_false, if_true, State.keyed_X]
      rw [State.runPass_key _ (by decide)]
      cases x <;> simp [hk, State.keyAgain]
    · simp only [hi, ne_eq, not_false_eq_true, if_true, if_false, State.runPass_iv, State.keyed_IL]
      cases hv : lengthOk ivlen with
      | false => rfl
      | true =>
        simp only [if_true, Bool.true_eq_false, if_false, State.ivPass_X, State.keyed_X]
        rw [State.runPass_key _ (by decide)]
        cases x <;> simp [hk, State.keyAgain]

/-- The two initializations as their common command, once a command can be accepted (R116, R117). -/
theorem exec_init {s : State} (h : s.cmdReady = true) (klen ivlen : Byte) :
    exec (.init klen ivlen) s = .next (s.initCommand false klen ivlen) := by
  simp only [exec, execInit, h, if_true]

theorem exec_init3 {s : State} (h : s.cmdReady = true) (klen ivlen : Byte) :
    exec (.init3 klen ivlen) s = .next (s.initCommand true klen ivlen) := by
  simp only [exec, execInit3, h, if_true]

/-- What no initialization touches, and what each latches, whatever its outcome (R21, R28, R115). -/
theorem State.initCommand_frame (s : State) (x : Bool) (klen ivlen : Byte) :
    (s.initCommand x klen ivlen).N = s.N ∧ (s.initCommand x klen ivlen).outQ = s.outQ ∧
      (s.initCommand x klen ivlen).illSeen = s.illSeen ∧ SameEnvironment s (s.initCommand x klen ivlen) ∧
      (s.initCommand x klen ivlen).PH = .idle ∧ (s.initCommand x klen ivlen).ILL = false ∧
      (s.initCommand x klen ivlen).KL = klen ∧ (s.initCommand x klen ivlen).IL = ivlen ∧
      (s.initCommand x klen ivlen).X = x := by
  rw [State.initCommand_eq]
  split_ifs <;> simp [SameEnvironment, *]

/-- An initialization ends valid exactly when both lengths are admitted (R171). -/
theorem State.initCommand_V (s : State) (x : Bool) (klen ivlen : Byte) :
    (s.initCommand x klen ivlen).V = (lengthOk klen && (ivlen == 0x00#8 || lengthOk ivlen)) := by
  rw [State.initCommand_eq]
  split_ifs <;> simp_all

/-- `ERR` is the opposite of `V` after an initialization (R91). -/
theorem State.initCommand_ERR (s : State) (x : Bool) (klen ivlen : Byte) :
    (s.initCommand x klen ivlen).ERR = !(s.initCommand x klen ivlen).V := by
  rw [State.initCommand_eq]
  split_ifs <;> simp

/-- `ERRLEN` after an initialization (R171, R174). -/
theorem State.initCommand_ERRLEN (s : State) (x : Bool) (klen ivlen : Byte) :
    (s.initCommand x klen ivlen).ERRLEN =
      if lengthOk klen = false then klen else if ivlen = 0x00#8 then 0x00#8
      else if lengthOk ivlen = false then ivlen else 0x00#8 := by
  rw [State.initCommand_eq]
  split_ifs <;> simp

/-- The fill leaves nothing of what was in `P`, `S` or the sequencer's registers (R114, R115). -/
theorem State.filled_forgets {s u : State} (hs : s.P.wf Config.entries) (hu : u.P.wf Config.entries) (mat : u.MAT = s.MAT)
    (host : u.host = s.host) (outQ : u.outQ = s.outQ) (dout : u.dout = s.dout) (illSeen : u.illSeen = s.illSeen)
    (x : Bool) (klen ivlen : Byte) :
    u.filled x klen ivlen = { s.filled x klen ivlen with pEpoch := u.pEpoch, N := u.N } := by
  have same : (u.filled x klen ivlen).P = (s.filled x klen ivlen).P := Memory.storeAll_forgets id hu hs
  rw [State.mk.injEq]
  exact ⟨same, rfl, rfl, rfl, rfl, rfl, rfl, rfl, rfl, rfl, rfl, rfl, rfl, rfl, rfl, mat, host, outQ, dout, illSeen⟩

/-- An initialization does not depend on the free bytes, on `N`, or on anything that is no longer there once the fill is
over. -/
theorem State.initCommand_withEpoch {s u : State} {x : Bool} {klen ivlen : Byte} {e : Nat} {n : Byte}
    (filled : u.filled x klen ivlen = { s.filled x klen ivlen with pEpoch := e, N := n }) :
    u.initCommand x klen ivlen = { s.initCommand x klen ivlen with pEpoch := e, N := n } := by
  have written := State.fullyWritten_keyed s x klen ivlen
  have writtenIv := State.fullyWritten_ivPass written ivlen
  have key : u.keyed x klen ivlen = { s.keyed x klen ivlen with pEpoch := e, N := n } := by
    rw [State.keyed, filled]
    exact State.ksaRun_withEpoch (State.fullyWritten_filled s x klen ivlen) _ _ _ _
  have iv : ∀ t : State, t.FullyWritten →
      ({ t with pEpoch := e, N := n } : State).ivPass ivlen = { t.ivPass ivlen with pEpoch := e, N := n } := fun t ht =>
    State.ksaRun_withEpoch (s := { t with PASS := 1#2 }) ht _ _ _ _
  have again : ∀ t : State, t.FullyWritten →
      ({ t with pEpoch := e, N := n } : State).keyAgain klen = { t.keyAgain klen with pEpoch := e, N := n } := fun t ht =>
    State.ksaRun_withEpoch (s := { t with PASS := 2#2 }) ht _ _ _ _
  have complete : ∀ t : State,
      ({ t with pEpoch := e, N := n } : State).completeInit = { t.completeInit with pEpoch := e, N := n } := fun _ => rfl
  have raise : ∀ (t : State) (L : Byte), ({ t with pEpoch := e, N := n } : State).raiseInvalidSize L =
      { t.raiseInvalidSize L with pEpoch := e, N := n } := fun _ _ => rfl
  have raiseIv : ∀ (t : State) (L : Byte), ({ t with pEpoch := e, N := n, PASS := 1#2 } : State).raiseInvalidSize L =
      { ({ t with PASS := 1#2 } : State).raiseInvalidSize L with pEpoch := e, N := n } := fun _ _ => rfl
  rw [State.initCommand_eq, State.initCommand_eq, filled, key, iv _ written, again _ written, again _ writtenIv]
  split_ifs <;> simp only [complete, raise, raiseIv]

end Sys2Proof.Machine
end

