-- ==== Sys2Proof/Laws/Reference.lean ====
section
/-! SUPPORT. The engine's rounds, passes and steps are those of the document's operations (R110, R112, R142). -/

namespace Sys2Proof.Machine

theorem State.length_material (s : State) (bank : BitVec 1) (L : Byte) : (s.material bank L).length = L.toNat := by
  simp [State.material, byteCount]

theorem State.getD_material (s : State) (bank : BitVec 1) (L : Byte) {j : Nat} (h : j < L.toNat) :
    (s.material bank L).getD j 0#8 = s.matRead bank (BitVec.ofNat 6 j) := by
  rw [List.getD_eq_getElem _ _ (by rw [State.length_material]; exact h)]
  simp [State.material]

/-- The material depends on the banks only. -/
theorem State.material_congr {s t : State} (h : s.MAT = t.MAT) : s.material = t.material := by
  funext bank L
  simp only [State.material, State.matRead_congr h]

theorem State.cipher_congr {s t : State} (hP : s.P = t.P) (he : s.pEpoch = t.pEpoch) (hS : s.S = t.S) :
    s.cipher = t.cipher := by
  simp only [State.cipher, State.readP_congr hP he, hS]

/-- One KSA round of the engine is the document's round `m`. -/
theorem State.cipher_ksaRound (s : State) (bank : BitVec 1) (L : Byte) {m : Nat} (hL : lengthOk L = true)
    (hM : s.M.toNat = m) (hJ : s.J.toNat = m % L.toNat) :
    (s.ksaRound bank L).cipher = s.cipher.round (s.material bank L) m := by
  obtain ⟨low, high⟩ := (lengthOk_iff L).mp hL
  have below : m % L.toNat < L.toNat := Nat.mod_lt _ (by omega)
  have pos : s.ksaPos = BitVec.ofNat 8 m := by rw [State.ksaPos_eq, hM]
  have idx : s.J = BitVec.ofNat 6 (m % L.toNat) := by
    apply BitVec.eq_of_toNat_eq
    rw [BitVec.toNat_ofNat, ← hJ, Nat.mod_eq_of_lt s.J.isLt]
  have newS : s.ksaNewS bank = s.readP (s.S + s.readP (BitVec.ofNat 8 m) +
      (s.material bank L).getD (m % (s.material bank L).length) 0#8) := by
    rw [State.length_material, State.getD_material s bank L below, ← idx, ← pos]
    rfl
  simp only [State.cipher, Cipher.round, Cipher.mk.injEq, State.ksaRound_S, newS, and_true]
  funext a
  rw [State.readP_ksaRound, newS, pos]
  rfl

/-- The rounds of a pass are the document's rounds (R112). -/
theorem State.cipher_ksaRounds (s : State) (bank : BitVec 1) (L : Byte) (hL : lengthOk L = true) (hM : s.M = 0#10)
    (hJ : s.J = 0#6) (k : Nat) (hk : k ≤ 768) :
    (State.ksaRounds bank L k s).cipher = Cipher.rounds (s.material bank L) k s.cipher := by
  have start : s.M.toNat = 0 := by rw [hM]; rfl
  induction k with
  | zero => rfl
  | succ k ih =>
    have counted := State.ksaRounds_M bank L k s (by omega)
    have indexed := State.ksaRounds_J bank hL k s (by rw [hJ, start]; simp)
    rw [start, Nat.zero_add] at counted indexed
    have mat : (State.ksaRounds bank L k s).MAT = s.MAT := by rw [State.ksaRounds_frame]
    rw [State.ksaRounds, State.cipher_ksaRound _ bank L hL counted indexed, ih (by omega), State.material_congr mat]
    rfl

theorem State.cipher_ksaRun (s : State) (bank : BitVec 1) (L : Byte) (hL : lengthOk L = true) :
    (s.ksaRun bank L).cipher = Cipher.rounds (s.material bank L) Config.rounds s.cipher :=
  State.cipher_ksaRounds _ bank L hL rfl rfl _ rounds_eq.le

/-- The document's `schedule` on the material of a bank, by the length check (R113). -/
theorem Cipher.schedule_material (c : Cipher) (s : State) (bank : BitVec 1) (L : Byte) :
    c.schedule (s.material bank L) =
      if lengthOk L then .ok (Cipher.rounds (s.material bank L) Config.rounds c) else .error L.toNat := by
  rw [Cipher.schedule, State.length_material]
  exact if_congr (lengthOk_iff L).symm rfl rfl

@[simp] theorem State.cipher_completeInit (t : State) : t.completeInit.cipher = t.cipher := (rfl)

theorem State.cipher_filled (s : State) (x : Bool) (klen ivlen : Byte) :
    (s.filled x klen ivlen).cipher = Cipher.identity := by
  simp only [State.cipher, Cipher.identity, Cipher.mk.injEq, State.filled_S, and_true]
  exact funext fun a => State.readP_filled s x klen ivlen a

theorem State.cipher_keyed (s : State) (x : Bool) {klen : Byte} (ivlen : Byte) (hk : lengthOk klen = true) :
    (s.keyed x klen ivlen).cipher = Cipher.rounds (s.material 0#1 klen) Config.rounds Cipher.identity := by
  rw [State.keyed, State.cipher_ksaRun _ _ _ hk, State.cipher_filled,
    State.material_congr (State.filled_MAT s x klen ivlen)]

theorem State.cipher_ivPass (t : State) {ivlen : Byte} (hi : lengthOk ivlen = true) :
    (t.ivPass ivlen).cipher = Cipher.rounds (t.material 1#1 ivlen) Config.rounds t.cipher :=
  State.cipher_ksaRun _ _ _ hi

theorem State.cipher_keyAgain (t : State) {klen : Byte} (hk : lengthOk klen = true) :
    (t.keyAgain klen).cipher = Cipher.rounds (t.material 0#1 klen) Config.rounds t.cipher :=
  State.cipher_ksaRun _ _ _ hk

end Sys2Proof.Machine
end

