-- ==== Sys2Proof/Laws/Keystream.lean ====
section
/-! SUPPORT. What a keystream step and a run of data beats can do (R142 to R149). -/

namespace Sys2Proof.Machine

theorem State.readP_ksStep (s : State) (d a : Byte) :
    (s.ksStep d).readP a =
      if a = s.ksNewS then s.readP s.N else if a = s.N then s.readP s.ksNewS else s.readP a :=
  State.readP_swapP s _ _ a

theorem State.isPermutation_ksStep {s : State} (h : s.IsPermutation) (d : Byte) : (s.ksStep d).IsPermutation :=
  State.isPermutation_swapP h s.ksPos s.ksNewS

theorem State.fullyWritten_ksStep {s : State} (h : s.FullyWritten) (d : Byte) : (s.ksStep d).FullyWritten :=
  State.fullyWritten_swapP h s.ksPos s.ksNewS

theorem State.wf_ksStep {s : State} (h : s.P.wf Config.entries) (d : Byte) : (s.ksStep d).P.wf Config.entries :=
  State.wf_swapP h s.ksPos s.ksNewS

/-- The state after a step does not depend on the data byte, but for the output (R142, corner case 6). -/
theorem State.ksStep_eq (s : State) (d : Byte) :
    s.ksStep d = { s.ksStep 0x00#8 with outQ := s.outQ ++ [d ^^^ s.ksByte] } := rfl

/-- One step is the document's transform of one byte at position `k` of the call. -/
theorem State.cipher_ksStep (s : State) (d : Byte) {k : Nat} (hN : s.N = BitVec.ofNat 8 k) :
    (s.ksStep d).cipher = (s.cipher.transformByte k d).2 ∧ d ^^^ s.ksByte = (s.cipher.transformByte k d).1 := by
  have newS : s.ksNewS = s.readP (s.S + s.readP (BitVec.ofNat 8 k)) := by rw [← hN]; rfl
  constructor
  · simp only [State.cipher, Cipher.transformByte, Cipher.mk.injEq, State.ksStep_S, newS, and_true]
    funext a
    rw [State.readP_ksStep, newS, hN]
    rfl
  · simp only [State.ksByte, State.ksOutIndex, newS]
    rfl

theorem ofNat_succ (k : Nat) : BitVec.ofNat 8 k + 1#8 = BitVec.ofNat 8 (k + 1) := by
  apply BitVec.eq_of_toNat_eq
  simp

/-- A data beat inside a call is one step. -/
theorem exec_data_streaming {s : State} (h : s.PH = .stream) (d : Byte) : exec (.data d) s = .next (s.ksStep d) := by
  simp [exec, execData, State.dinReady, State.strm, h]

/-- The state after the data bytes `ds` of an open call. -/
def State.steps (s : State) (ds : List Byte) : State := ds.foldl State.ksStep s

theorem execAll_data {s : State} (h : s.PH = .stream) (ds : List Byte) :
    execAll (ds.map Instr.data) s = .next (s.steps ds) := by
  induction ds generalizing s with
  | nil => rfl
  | cons d ds ih =>
    rw [List.map_cons, execAll, exec_data_streaming h]
    exact ih (s := s.ksStep d) h

/-- Data beats write `P`, `S`, `N` and the output queue only. -/
theorem State.steps_frame (s : State) (ds : List Byte) :
    s.steps ds = { s with P := (s.steps ds).P, S := (s.steps ds).S, N := (s.steps ds).N, outQ := (s.steps ds).outQ } := by
  induction ds generalizing s with
  | nil => rfl
  | cons d ds ih => exact (ih (s.ksStep d)).trans rfl

theorem State.steps_N (s : State) (ds : List Byte) : (s.steps ds).N = s.N + BitVec.ofNat 8 ds.length := by
  induction ds generalizing s with
  | nil => simp [State.steps]
  | cons d ds ih =>
    have := ih (s.ksStep d)
    rw [State.steps, List.foldl_cons]
    rw [State.steps] at this
    rw [this, State.ksStep_N, List.length_cons, ← ofNat_succ ds.length, BitVec.add_assoc, BitVec.add_comm 1#8]

/-- The data beats of a call are the document's transform (R142, R144). -/
theorem State.cipher_steps (s : State) (ds : List Byte) {k : Nat} (hN : s.N = BitVec.ofNat 8 k) :
    (s.steps ds).cipher = (s.cipher.transform k ds).2 ∧ (s.steps ds).outQ = s.outQ ++ (s.cipher.transform k ds).1 := by
  induction ds generalizing s k with
  | nil => simp [State.steps, Cipher.transform]
  | cons d ds ih =>
    obtain ⟨same, out⟩ := State.cipher_ksStep s d hN
    obtain ⟨cipher, queue⟩ := ih (s.ksStep d) (k := k + 1) (by rw [State.ksStep_N, hN, ofNat_succ])
    rw [State.steps, List.foldl_cons, Cipher.transform]
    rw [State.steps] at cipher queue
    exact ⟨by rw [cipher, same], by rw [queue, State.ksStep_outQ, out, same, List.append_assoc]; rfl⟩

/-- With every entry written, a step does not depend on the free bytes, nor ever on the sequencer's registers. -/
theorem State.ksStep_withEpoch {s : State} (written : s.FullyWritten) (d : Byte) (e : Nat) (m : BitVec 10) (j : BitVec 6)
    (p : BitVec 2) (kl il : Byte) (x : Bool) :
    ({ s with pEpoch := e, M := m, J := j, PASS := p, KL := kl, IL := il, X := x } : State).ksStep d =
      { s.ksStep d with pEpoch := e, M := m, J := j, PASS := p, KL := kl, IL := il, X := x } := by
  have read : ({ s with pEpoch := e, M := m, J := j, PASS := p, KL := kl, IL := il, X := x } : State).readP = s.readP :=
    (State.readP_of_written (s := s)
      (t := { s with pEpoch := e, M := m, J := j, PASS := p, KL := kl, IL := il, X := x }) rfl written).symm
  have newS : ({ s with pEpoch := e, M := m, J := j, PASS := p, KL := kl, IL := il, X := x } : State).ksNewS = s.ksNewS := by
    simp only [State.ksNewS, State.ksIndex, read]
    rfl
  have byte : ({ s with pEpoch := e, M := m, J := j, PASS := p, KL := kl, IL := il, X := x } : State).ksByte = s.ksByte := by
    simp only [State.ksByte, State.ksOutIndex, read, newS]
  simp only [State.ksStep, newS, byte, State.swapP, read]
  rfl

/-- The outputs outstanding before a run of data beats do not touch it. -/
theorem State.steps_withOutQ (s : State) (outQ : List Byte) (ds : List Byte) :
    ({ s with outQ := outQ } : State).steps ds =
      { s.steps ds with outQ := outQ ++ (s.cipher.transform s.N.toNat ds).1 } := by
  have same : ({ s with outQ := outQ } : State).steps ds = { s.steps ds with outQ := (({ s with outQ := outQ } : State).steps ds).outQ } := by
    induction ds generalizing s outQ with
    | nil => rfl
    | cons d ds ih => exact ih (s.ksStep d) (outQ ++ [d ^^^ s.ksByte])
  rw [same, (State.cipher_steps { s with outQ := outQ } ds (k := s.N.toNat) (by simp)).2]
  rfl

/-- The state after a data beat, but for the output, does not depend on the byte (R142). -/
theorem State.ksStep_data (s : State) (d e : Byte) :
    s.ksStep e = { s.ksStep d with outQ := s.outQ ++ [e ^^^ s.ksByte] } := rfl

end Sys2Proof.Machine
end

