-- ==== Sys2Proof/Laws/Step.lean ====
section
/-! SUPPORT. What a step can do, said once: `step_inv` and the cases it gives (R63, R81, R141, R200). -/

namespace Sys2Proof.Machine

/-! ### The port signals under the updates of the host's side -/

@[simp] theorem State.busy_withHost (s : State) (rest : List HostEvent) : (s.withHost rest).busy = s.busy := rfl
@[simp] theorem State.strm_withHost (s : State) (rest : List HostEvent) : (s.withHost rest).strm = s.strm := rfl
@[simp] theorem State.cmdReady_withHost (s : State) (rest : List HostEvent) : (s.withHost rest).cmdReady = s.cmdReady := rfl
@[simp] theorem State.dinReady_withHost (s : State) (rest : List HostEvent) : (s.withHost rest).dinReady = s.dinReady := rfl
@[simp] theorem State.readP_withHost (s : State) (rest : List HostEvent) : (s.withHost rest).readP = s.readP := rfl

theorem State.dinReady_iff (s : State) : s.dinReady = true ↔ s.PH = .stream := by simp [State.dinReady, State.strm]

theorem State.cmdReady_iff (s : State) : s.cmdReady = true ↔ s.busy = false ∧ s.outQ = [] := by
  simp [State.cmdReady]

theorem State.busy_of_stream {s : State} (h : s.PH = .stream) : s.busy = false := by simp [State.busy, h]

theorem State.busy_of_idle {s : State} (h : s.PH = .idle) : s.busy = false := by simp [State.busy, h]

theorem State.busy_congr {s t : State} (h : s.PH = t.PH) : s.busy = t.busy := by simp [State.busy, h]

theorem State.idle_or_stream {s : State} (h : s.busy = false) : s.PH = .idle ∨ s.PH = .stream := by
  cases hp : s.PH <;> simp_all [State.busy]

/-! ### The next offer -/

theorem firstOffer_data {ready : Bool} {offers rest : List HostEvent} {d : Byte}
    (h : firstOffer ready offers = some (.data d, rest)) : ready = true := by
  induction offers generalizing rest with
  | nil => simp [firstOffer] at h
  | cons e offers ih =>
    cases e with
    | data d' =>
      cases ready with
      | true => rfl
      | false =>
        simp only [firstOffer, Bool.false_eq_true, if_false] at h
        split at h
        · simp at h
        · rename_i ev others hrec
          simp only [Option.some.injEq, Prod.mk.injEq] at h
          exact ih (rest := others) (by rw [hrec, h.1])
    | cmd w => simp [firstOffer] at h
    | take => simp [firstOffer] at h
    | mat a v => simp [firstOffer] at h
    | rst => simp [firstOffer] at h

theorem State.nextOffer_data {s : State} {d : Byte} {rest : List HostEvent} (h : s.nextOffer = some (.data d, rest)) :
    s.PH = .stream :=
  (State.dinReady_iff s).mp (firstOffer_data h)

/-- The first event of the list is the next offer, unless it is a data byte. -/
theorem State.nextOffer_head {s : State} {e : HostEvent} {rest : List HostEvent} (h : s.host = e :: rest)
    (he : ∀ d, e ≠ .data d) : s.nextOffer = some (e, rest) := by
  rw [State.nextOffer, h]
  cases e with
  | data d => exact absurd rfl (he d)
  | cmd w => rfl
  | take => rfl
  | mat a v => rfl
  | rst => rfl

/-! ### The inversion of `step` -/

/-- Everything a step from `s` can do. -/
inductive StepCase (s : State) : State → Prop
  /-- `rst`, in any phase (R200, R202). -/
  | reset {rest : List HostEvent} (offer : s.nextOffer = some (.rst, rest)) : StepCase s (s.withHost rest).hostReset
  /-- A running operation goes on; nothing is accepted (R31, R81). -/
  | running (busy : s.busy = true) (noReset : ∀ rest, s.nextOffer ≠ some (.rst, rest)) : StepCase s s.seqStep
  /-- Nothing can be accepted. -/
  | waiting (idle : s.busy = false) (offer : s.nextOffer = none) : StepCase s s.deliver
  /-- A command word waits for an outstanding output (R81). -/
  | blocked {w : CommandWord} {rest : List HostEvent} (idle : s.busy = false)
      (offer : s.nextOffer = some (.cmd w, rest)) (ready : s.cmdReady = false) : StepCase s s.deliver
  /-- The host takes an output byte. -/
  | take {rest : List HostEvent} (idle : s.busy = false) (offer : s.nextOffer = some (.take, rest)) :
      StepCase s (s.withHost rest).deliver
  /-- The host sets a material byte. -/
  | mat {a : MatAddr} {v : Byte} {rest : List HostEvent} (idle : s.busy = false)
      (offer : s.nextOffer = some (.mat a v, rest)) : StepCase s ((s.withHost rest).setMat a v)
  /-- A data beat in an open call (R141, R142). -/
  | data {d : Byte} {rest : List HostEvent} (streaming : s.PH = .stream) (offer : s.nextOffer = some (.data d, rest)) :
      StepCase s ((s.withHost rest).ksStep d)
  /-- `INIT` (R116). -/
  | init {w : CommandWord} {rest : List HostEvent} {klen ivlen : Byte} (offer : s.nextOffer = some (.cmd w, rest))
      (ready : s.cmdReady = true) (dec : decodeCommand w = .ok (.init klen ivlen)) :
      StepCase s ((s.withHost rest).initCommand false klen ivlen)
  /-- `INIT3` (R117). -/
  | init3 {w : CommandWord} {rest : List HostEvent} {klen ivlen : Byte} (offer : s.nextOffer = some (.cmd w, rest))
      (ready : s.cmdReady = true) (dec : decodeCommand w = .ok (.init3 klen ivlen)) :
      StepCase s ((s.withHost rest).initCommand true klen ivlen)
  /-- `XFORM` (R140). -/
  | xform {w : CommandWord} {rest : List HostEvent} (offer : s.nextOffer = some (.cmd w, rest))
      (ready : s.cmdReady = true) (dec : decodeCommand w = .ok .xform) : StepCase s (s.withHost rest).openCall
  /-- `WIPE` (R160). -/
  | wipe {w : CommandWord} {rest : List HostEvent} (offer : s.nextOffer = some (.cmd w, rest))
      (ready : s.cmdReady = true) (dec : decodeCommand w = .ok .wipe) : StepCase s (s.withHost rest).acceptWipe.zeroize
  /-- A reserved word (R87). -/
  | refused {w : CommandWord} {rest : List HostEvent} {r : Reserved} (offer : s.nextOffer = some (.cmd w, rest))
      (ready : s.cmdReady = true) (dec : decodeCommand w = .error r) : StepCase s (s.withHost rest).refuseWord

theorem acceptWord_inv {s t : State} {w : CommandWord} {rest : List HostEvent}
    (offer : s.nextOffer = some (.cmd w, rest)) (ready : s.cmdReady = true)
    (h : acceptWord w (s.withHost rest) = .next t) : StepCase s t := by
  unfold acceptWord at h
  cases dec : decodeCommand w with
  | error r =>
    rw [dec] at h
    cases h
    exact .refused offer ready dec
  | ok i =>
    rw [dec] at h
    cases i with
    | init klen ivlen =>
      simp only [exec, execInit, State.cmdReady_withHost, ready, if_true, Host.Outcome.next.injEq] at h
      exact h ▸ .init offer ready dec
    | init3 klen ivlen =>
      simp only [exec, execInit3, State.cmdReady_withHost, ready, if_true, Host.Outcome.next.injEq] at h
      exact h ▸ .init3 offer ready dec
    | xform =>
      simp only [exec, execXform, State.cmdReady_withHost, ready, if_true, Host.Outcome.next.injEq] at h
      exact h ▸ .xform offer ready dec
    | wipe =>
      simp only [exec, execWipe, State.cmdReady_withHost, ready, if_true, Host.Outcome.next.injEq] at h
      exact h ▸ .wipe offer ready dec
    | data d => exact absurd dec decodeCommand_ne_data

/-- The inversion of a step: whatever it answers is one of the cases. -/
theorem step_inv {s t : State} (h : step s = .next t) : StepCase s t := by
  unfold step at h
  cases offer : s.nextOffer with
  | none =>
    rw [offer] at h
    cases busy : s.busy with
    | true =>
      simp only [busy, if_true, Host.Outcome.next.injEq] at h
      exact h ▸ .running busy fun rest => by simp [offer]
    | false =>
      simp only [busy, Bool.false_eq_true, if_false, Host.Outcome.next.injEq] at h
      exact h ▸ .waiting busy offer
  | some p =>
    obtain ⟨e, rest⟩ := p
    rw [offer] at h
    by_cases reset : e = .rst
    · subst reset
      cases h
      exact .reset offer
    · have noReset : ∀ rest', s.nextOffer ≠ some (.rst, rest') := fun rest' => by
        rw [offer]; simp [reset]
      cases busy : s.busy with
      | true =>
        have : t = s.seqStep := by cases e <;> simp_all
        exact this ▸ .running busy noReset
      | false =>
        cases e with
        | rst => exact absurd rfl reset
        | take =>
          simp only [busy, Bool.false_eq_true, if_false, takeOffer, Host.Outcome.next.injEq] at h
          exact h ▸ .take busy offer
        | mat a v =>
          simp only [busy, Bool.false_eq_true, if_false, takeOffer, Host.Outcome.next.injEq] at h
          exact h ▸ .mat busy offer
        | data d =>
          have streaming := State.nextOffer_data offer
          simp only [busy, Bool.false_eq_true, if_false, takeOffer,
            exec_data_streaming (s := s.withHost rest) streaming, Host.Outcome.next.injEq] at h
          exact h ▸ .data streaming offer
        | cmd w =>
          simp only [busy, Bool.false_eq_true, if_false, takeOffer] at h
          cases ready : s.cmdReady with
          | true =>
            rw [ready, if_pos rfl] at h
            exact acceptWord_inv offer ready h
          | false =>
            rw [ready] at h
            simp only [Bool.false_eq_true, if_false, Host.Outcome.next.injEq] at h
            exact h ▸ .blocked busy offer ready

/-- The cases are exactly what a step answers. -/
theorem StepCase.step {s t : State} (h : StepCase s t) : step s = .next t := by
  cases h with
  | reset offer => simp [Machine.step, offer]
  | running busy noReset =>
    cases offer : s.nextOffer with
    | none => simp [Machine.step, offer, busy]
    | some p =>
      obtain ⟨e, rest⟩ := p
      cases e with
      | rst => exact absurd offer (noReset rest)
      | _ => simp [Machine.step, offer, busy]
  | waiting idle offer => simp [Machine.step, offer, idle]
  | blocked idle offer ready => simp [Machine.step, offer, idle, takeOffer, ready]
  | take idle offer => simp [Machine.step, offer, idle, takeOffer]
  | mat idle offer => simp [Machine.step, offer, idle, takeOffer]
  | @data d rest streaming offer =>
    simp only [Machine.step, offer, State.busy_of_stream streaming, takeOffer, Bool.false_eq_true, if_false]
    exact exec_data_streaming (s := s.withHost rest) streaming d
  | init offer ready dec =>
    simp [Machine.step, offer, (s.cmdReady_iff.mp ready).1, takeOffer, ready, acceptWord, dec, exec, execInit]
  | init3 offer ready dec =>
    simp [Machine.step, offer, (s.cmdReady_iff.mp ready).1, takeOffer, ready, acceptWord, dec, exec, execInit3]
  | xform offer ready dec =>
    simp [Machine.step, offer, (s.cmdReady_iff.mp ready).1, takeOffer, ready, acceptWord, dec, exec, execXform]
  | wipe offer ready dec =>
    simp [Machine.step, offer, (s.cmdReady_iff.mp ready).1, takeOffer, ready, acceptWord, dec, exec, execWipe]
  | refused offer ready dec =>
    simp [Machine.step, offer, (s.cmdReady_iff.mp ready).1, takeOffer, ready, acceptWord, dec]

/-- An accepted command word is decoded and run in the state with the offer taken (R81). -/
theorem step_cmd_ready {s : State} {w : CommandWord} {rest : List HostEvent} (offer : s.nextOffer = some (.cmd w, rest))
    (ready : s.cmdReady = true) : step s = acceptWord w (s.withHost rest) := by
  simp [step, offer, (s.cmdReady_iff.mp ready).1, takeOffer, ready]

/-! ### The updates that are not one record -/

/-- A taken output moves from one list to the other (R146). -/
theorem State.deliver_out (s : State) : s.deliver.dout ++ s.deliver.outQ = s.dout ++ s.outQ := by
  unfold State.deliver
  split
  · rfl
  · simp [*]

theorem State.deliver_nil {s : State} (h : s.outQ = []) : s.deliver = s := by simp [State.deliver, h]

/-- The oldest outstanding byte is the one delivered (R84, R146). -/
theorem State.deliver_cons {s : State} {q : Byte} {qs : List Byte} (h : s.outQ = q :: qs) :
    s.deliver = { s with outQ := qs, dout := s.dout ++ [q] } := by simp [State.deliver, h]

theorem State.openCall_valid {s : State} (h : s.V = true) :
    s.openCall = { s with N := 0x00#8, PH := .stream, ILL := false } := by
  rw [State.openCall, if_pos h]
  rfl

theorem State.openCall_invalid {s : State} (h : s.V = false) : s.openCall = s.refuseWord := by
  rw [State.openCall, h]
  rfl

/-- `XFORM` writes `N`, `PH` and `ILL` (and the sticky mark) only (R140, R173). -/
theorem State.openCall_frame (s : State) :
    s.openCall = { s with N := s.openCall.N, PH := s.openCall.PH, ILL := s.openCall.ILL, illSeen := s.openCall.illSeen } := by
  unfold State.openCall
  split_ifs <;> rfl

theorem State.openCall_PH (s : State) : s.openCall.PH = .idle ∨ s.openCall.PH = .stream := by
  cases h : s.V with
  | true => exact .inr (by rw [State.openCall_valid h])
  | false => exact .inl (by rw [State.openCall_invalid h]; rfl)

theorem exec_xform {s : State} (ready : s.cmdReady = true) : exec .xform s = .next s.openCall := by
  simp only [exec, execXform, ready, if_true]

theorem exec_wipe {s : State} (ready : s.cmdReady = true) : exec .wipe s = .next s.acceptWipe.zeroize := by
  simp only [exec, execWipe, ready, if_true]

theorem State.readP_zeroize (s : State) (a : Byte) : s.acceptWipe.zeroize.readP a = 0x00#8 :=
  State.readP_storeAll s.acceptWipe (fun _ => 0x00#8) a

end Sys2Proof.Machine
end

