-- ==== Sys2Proof/Laws/Sequencer.lean ====
section
/-! SUPPORT. The sequencer one position at a time (D1, R29, R118). -/

namespace Sys2Proof.Machine

theorem State.seqRun_idle {s : State} (h : s.busy = false) (k : Nat) : State.seqRun k s = s := by
  cases k with
  | zero => rfl
  | succ k => rw [State.seqRun, h]; rfl

theorem State.seqRun_busy {s : State} (h : s.busy = true) (k : Nat) : State.seqRun (k + 1) s = State.seqRun k s.seqStep := by
  rw [State.seqRun, if_pos h]

theorem State.seqRun_add (j k : Nat) (s : State) : State.seqRun (j + k) s = State.seqRun k (State.seqRun j s) := by
  induction j generalizing s with
  | zero => rw [Nat.zero_add]; rfl
  | succ j ih =>
    cases h : s.busy with
    | true => rw [show j + 1 + k = (j + k) + 1 by omega, State.seqRun_busy h, ih, State.seqRun_busy h]
    | false => rw [State.seqRun_idle h, State.seqRun_idle h, State.seqRun_idle h]

theorem State.busy_of_ksa {s : State} (h : s.PH = .ksa) : s.busy = true := by simp [State.busy, h]

theorem State.busy_of_fill {s : State} (h : s.PH = .fill) : s.busy = true := by simp [State.busy, h]

theorem State.busy_of_wiping {s : State} (h : s.PH = .wiping) : s.busy = true := by simp [State.busy, h]

/-- Inside a pass, `k` positions are `k` rounds. -/
theorem State.seqRun_rounds (k : Nat) (s : State) (ph : s.PH = .ksa) (h : s.M.toNat + k ≤ 768) :
    State.seqRun k s = State.ksaRounds (passBank s.PASS) (s.passLength s.PASS) k s := by
  induction k generalizing s with
  | zero => rfl
  | succ k ih =>
    have notDone : s.M ≠ 768#10 := fun e => by rw [e] at h; simp at h
    have one : s.seqStep = s.ksaRound (passBank s.PASS) (s.passLength s.PASS) := by
      simp [State.seqStep, ph, notDone]
    have counted := State.M_toNat_ksaRound (s := s) (by omega) (passBank s.PASS) (s.passLength s.PASS)
    rw [State.seqRun_busy (State.busy_of_ksa ph), State.ksaRounds_succ, one]
    exact ih (s.ksaRound _ _) ph (by omega)

/-- A pass that has just been entered takes 768 positions and leaves what the schedule pass leaves (R112). -/
theorem State.seqRun_pass {s : State} (ph : s.PH = .ksa) (m : s.M = 0#10) (j : s.J = 0#6) :
    State.seqRun 768 s = s.ksaRun (passBank s.PASS) (s.passLength s.PASS) := by
  have start : ({ s with M := 0#10, J := 0#6 } : State) = s := by rw [← m, ← j]
  rw [State.ksaRun, start, rounds_eq, State.seqRun_rounds _ _ ph (by rw [m]; simp)]

/-- A position of a running operation touches no port, no material, and neither `ILL` nor the sticky mark. -/
theorem State.seqStep_frame (s : State) :
    s.seqStep.host = s.host ∧ s.seqStep.outQ = s.outQ ∧ s.seqStep.dout = s.dout ∧ s.seqStep.MAT = s.MAT ∧
      s.seqStep.ILL = s.ILL ∧ s.seqStep.illSeen = s.illSeen ∧ s.seqStep.pEpoch = s.pEpoch := by
  unfold State.seqStep
  split
  · simp
  · simp
  · unfold State.enterPass; split_ifs <;> simp
  · split_ifs
    · unfold State.endPass
      split
      · unfold State.enterPass; split_ifs <;> simp
      · simp
    · simp
  · simp

theorem State.seqStep_fill {s : State} (ph : s.PH = .fill) :
    s.seqStep = ({ s.identityFill with PH := .ksa } : State).enterPass 0#2 := by
  rw [State.seqStep, ph]

theorem State.seqStep_round {s : State} (ph : s.PH = .ksa) (m : s.M ≠ 768#10) :
    s.seqStep = s.ksaRound (passBank s.PASS) (s.passLength s.PASS) := by
  rw [State.seqStep, ph]
  exact if_neg m

theorem State.seqStep_end {s : State} (ph : s.PH = .ksa) (m : s.M = 768#10) :
    s.seqStep = s.endPass := by
  rw [State.seqStep, ph]
  exact if_pos m

theorem State.seqStep_wiping {s : State} (ph : s.PH = .wiping) : s.seqStep = s.zeroize := by
  rw [State.seqStep, ph]

/-- More positions than an operation needs change nothing. -/
theorem State.seqRun_of_idle {j k : Nat} {s : State} (le : j ≤ k) (idle : (State.seqRun j s).busy = false) :
    State.seqRun k s = State.seqRun j s := by
  obtain ⟨d, rfl⟩ := Nat.exists_eq_add_of_le le
  rw [State.seqRun_add, State.seqRun_idle idle]

/-- From inside a pass the rest of its rounds run, and then its end. -/
theorem State.seqRun_rest {s : State} (ph : s.PH = .ksa) (m : s.M.toNat ≤ 768) :
    State.seqRun (768 - s.M.toNat + 1) s =
      (State.ksaRounds (passBank s.PASS) (s.passLength s.PASS) (768 - s.M.toNat) s).endPass := by
  have running : (State.ksaRounds (passBank s.PASS) (s.passLength s.PASS) (768 - s.M.toNat) s).PH = .ksa := by
    rw [State.ksaRounds_frame]
    exact ph
  have counted : (State.ksaRounds (passBank s.PASS) (s.passLength s.PASS) (768 - s.M.toNat) s).M = 768#10 := by
    apply BitVec.eq_of_toNat_eq
    rw [State.ksaRounds_M _ _ _ _ (by omega), BitVec.toNat_ofNat]
    omega
  rw [State.seqRun_add, State.seqRun_rounds _ _ ph (by omega), State.seqRun_busy (State.busy_of_ksa running), State.seqRun,
    State.seqStep_end running counted]

/-- The rounds of a pass that has just been entered, with its end. -/
theorem State.seqRun_passEnd {s : State} (ph : s.PH = .ksa) (m : s.M = 0#10) (j : s.J = 0#6) :
    State.seqRun 769 s = (s.ksaRun (passBank s.PASS) (s.passLength s.PASS)).endPass := by
  have running : (s.ksaRun (passBank s.PASS) (s.passLength s.PASS)).PH = .ksa := by rw [State.ksaRun_PH]; exact ph
  rw [State.seqRun_add 768 1, State.seqRun_pass ph m j, State.seqRun_busy (State.busy_of_ksa running), State.seqRun,
    State.seqStep_end running (State.ksaRun_M _ _ _)]

end Sys2Proof.Machine
end

