-- ==== Sys2Proof/Laws/Invariant.lean ====
section
/-! SUPPORT. What each update keeps of the sound-state invariant (R36, R51). -/

namespace Sys2Proof.Machine

/-- The invariant reads `P`, `MAT`, the epoch, `M`, `PASS`, `PH` and the flags only. -/
theorem State.Inv.congr {s t : State} (h : s.Inv) (hP : t.P = s.P) (hE : t.pEpoch = s.pEpoch) (hMAT : t.MAT = s.MAT)
    (hM : t.M = s.M) (hPASS : t.PASS = s.PASS) (hPH : t.PH = s.PH) (hV : t.V = s.V) (hERR : t.ERR = s.ERR)
    (hLEN : t.ERRLEN = s.ERRLEN) (hILL : t.ILL = s.ILL) : t.Inv := by
  have read : s.readP = t.readP := State.readP_congr hP.symm hE.symm
  have perm := State.isPermutation_congr read
  have written := State.fullyWritten_congr hP.symm
  obtain ⟨mem, cnt, op, ⟨f1, f2, f3, f4⟩, wr⟩ := h
  refine ⟨by rwa [State.MemoryOk, hP, hMAT], by rwa [State.CountersOk, hM, hPASS], ?_, ⟨?_, ?_, ?_, ?_⟩, ?_⟩
  · rw [State.OperationOk, hPH, hV, hERR, hLEN, ← perm, ← written]
    exact op
  · rwa [hV, hERR]
  · rwa [hV, ← perm]
  · rwa [hERR, hLEN]
  · rwa [hPH, hV, hILL]
  · rwa [hV, ← written]

theorem State.Inv.withHost {s : State} (h : s.Inv) (rest : List HostEvent) : (s.withHost rest).Inv :=
  h.congr rfl rfl rfl rfl rfl rfl rfl rfl rfl rfl

theorem State.Inv.deliver {s : State} (h : s.Inv) : s.deliver.Inv := by
  refine h.congr ?_ ?_ ?_ ?_ ?_ ?_ ?_ ?_ ?_ ?_ <;> simp

/-- With no operation running and nothing valid, only the memories, the counters and the error flags matter. -/
theorem State.inv_of_spent {s : State} (mem : s.MemoryOk) (cnt : s.CountersOk) (ph : s.PH = .idle) (v : s.V = false)
    (err : s.ERR = false → s.ERRLEN = 0x00#8) : s.Inv := by
  refine ⟨mem, cnt, ?_, ⟨?_, ?_, err, ?_⟩, ?_⟩ <;> simp [State.OperationOk, ph, v]

/-- With no operation running and a valid cipher state. -/
theorem State.inv_of_valid {s : State} (mem : s.MemoryOk) (cnt : s.CountersOk) (err : s.ERR = false)
    (len : s.ERRLEN = 0x00#8) (perm : s.IsPermutation) (written : s.FullyWritten)
    (ph : s.PH = .idle ∨ s.PH = .stream ∧ s.V = true ∧ s.ILL = false) : s.Inv := by
  refine ⟨mem, cnt, ?_, ⟨fun _ => err, fun _ => perm, fun _ => len, ?_⟩, fun _ => written⟩
  · rcases ph with ph | ⟨ph, -⟩ <;> simp [State.OperationOk, ph]
  · rcases ph with ph | ⟨-, v, ill⟩
    · simp [ph]
    · exact fun _ => ⟨v, ill⟩

theorem State.Inv.setMat {s : State} (h : s.Inv) (a : MatAddr) (v : Byte) : (s.setMat a v).Inv := by
  obtain ⟨mem, cnt, op, flags, wr⟩ := h
  exact ⟨⟨mem.1, State.wf_setMat mem.2 a v⟩, cnt, op, ⟨flags.1, flags.2, flags.3, flags.4⟩, wr⟩

theorem State.Inv.hostReset {s : State} (h : s.Inv) : s.hostReset.Inv :=
  State.inv_of_spent ⟨Memory.wf_nil _, h.memory.2⟩ (by simp [State.CountersOk]) rfl rfl fun _ => rfl

theorem State.Inv.accept {s : State} (h : s.Inv) : s.accept.Inv := by
  cases v : s.V with
  | false => exact State.inv_of_spent h.memory h.counters rfl v h.flags.noErrorNoLength
  | true =>
    have err := h.flags.validNoError v
    exact State.inv_of_valid h.memory h.counters err (h.flags.noErrorNoLength err) (h.flags.validPermutation v)
      (h.written v) (.inl rfl)

theorem State.Inv.refuseWord {s : State} (h : s.Inv) : s.refuseWord.Inv := by
  cases v : s.V with
  | false => exact State.inv_of_spent h.memory h.counters rfl v h.flags.noErrorNoLength
  | true =>
    have err := h.flags.validNoError v
    exact State.inv_of_valid h.memory h.counters err (h.flags.noErrorNoLength err) (h.flags.validPermutation v)
      (h.written v) (.inl rfl)

theorem State.Inv.openCall {s : State} (h : s.Inv) : s.openCall.Inv := by
  unfold State.openCall
  split_ifs with v
  · have err := h.flags.validNoError v
    exact State.inv_of_valid h.memory h.counters err (h.flags.noErrorNoLength err) (h.flags.validPermutation v)
      (h.written v) (.inr ⟨rfl, v, rfl⟩)
  · exact h.refuseWord

theorem State.Inv.ksStep {s : State} (h : s.Inv) (streaming : s.PH = .stream) (d : Byte) : (s.ksStep d).Inv := by
  obtain ⟨v, ill⟩ := h.flags.streamValid streaming
  have err := h.flags.validNoError v
  exact State.inv_of_valid ⟨State.wf_ksStep h.memory.1 d, h.memory.2⟩ h.counters err (h.flags.noErrorNoLength err)
    (State.isPermutation_ksStep (h.flags.validPermutation v) d) (State.fullyWritten_ksStep (h.written v) d)
    (.inr ⟨streaming, v, ill⟩)

theorem State.inv_zeroize {s : State} (mem : s.MemoryOk) (cnt : s.CountersOk) (v : s.V = false) : s.zeroize.Inv :=
  State.inv_of_spent ⟨Memory.wf_storeAll _ mem.1, mem.2⟩ cnt rfl v fun _ => rfl

/-- A completed initialization from the state in which its last pass ended. -/
theorem State.inv_completeInit {t : State} (mem : t.MemoryOk) (cnt : t.CountersOk) (err : t.ERR = false)
    (len : t.ERRLEN = 0x00#8) (perm : t.IsPermutation) (written : t.FullyWritten) : t.completeInit.Inv :=
  State.inv_of_valid mem cnt err len perm written (.inl rfl)

/-- What holds of the state inside an initialization after every pass: everything completion and the raise need. -/
structure State.InPass (s : State) : Prop where
  memory : s.MemoryOk
  counters : s.CountersOk
  invalid : s.V = false
  noError : s.ERR = false
  noLength : s.ERRLEN = 0x00#8
  permutation : s.IsPermutation
  written : s.FullyWritten

theorem State.InPass.ksaRun {s : State} (h : s.InPass) (bank : BitVec 1) (L : Byte) : (s.ksaRun bank L).InPass where
  memory := ⟨State.wf_ksaRun h.memory.1 bank L, by rw [State.ksaRun_MAT]; exact h.memory.2⟩
  counters := ⟨by rw [State.ksaRun_M, rounds_eq]; decide, by rw [State.ksaRun_PASS]; exact h.counters.2⟩
  invalid := by rw [State.ksaRun_V]; exact h.invalid
  noError := by rw [State.ksaRun_ERR]; exact h.noError
  noLength := by rw [State.ksaRun_ERRLEN]; exact h.noLength
  permutation := State.isPermutation_ksaRun h.permutation bank L
  written := State.fullyWritten_ksaRun h.written bank L

theorem State.InPass.withPass {s : State} (h : s.InPass) {p : BitVec 2} (hp : p ≠ 3#2) :
    ({ s with PASS := p } : State).InPass :=
  ⟨h.memory, ⟨h.counters.1, hp⟩, h.invalid, h.noError, h.noLength, h.permutation, h.written⟩

theorem State.InPass.raise {s : State} (h : s.InPass) (L : Byte) : (s.raiseInvalidSize L).Inv :=
  State.inv_of_spent h.memory h.counters rfl h.invalid fun e => by simp at e

theorem State.InPass.complete {s : State} (h : s.InPass) : s.completeInit.Inv :=
  State.inv_completeInit h.memory h.counters h.noError h.noLength h.permutation h.written

theorem State.inPass_filled {s : State} (mem : s.MemoryOk) (x : Bool) (klen ivlen : Byte) :
    (s.filled x klen ivlen).InPass where
  memory := ⟨Memory.wf_storeAll _ mem.1, mem.2⟩
  counters := by simp [State.CountersOk]
  invalid := rfl
  noError := rfl
  noLength := rfl
  permutation := State.isPermutation_filled s x klen ivlen
  written := State.fullyWritten_filled s x klen ivlen

theorem State.inv_initCommand {s : State} (mem : s.MemoryOk) (x : Bool) (klen ivlen : Byte) :
    (s.initCommand x klen ivlen).Inv := by
  have filled := State.inPass_filled mem x klen ivlen
  have keyed : (s.keyed x klen ivlen).InPass := filled.ksaRun _ _
  have again : ∀ {t : State}, t.InPass → (t.keyAgain klen).InPass := fun ht => (ht.withPass (by decide)).ksaRun _ _
  have withIv : ((s.keyed x klen ivlen).ivPass ivlen).InPass := (keyed.withPass (by decide)).ksaRun _ _
  rw [State.initCommand_eq]
  split_ifs
  · exact filled.raise klen
  · exact (again keyed).complete
  · exact keyed.complete
  · exact (keyed.withPass (by decide)).raise ivlen
  · exact (again withIv).complete
  · exact withIv.complete

/-! ### One position of a running operation -/

theorem State.InPass.of_ksa {s : State} (h : s.Inv) (ph : s.PH = .ksa) : s.InPass := by
  obtain ⟨invalid, noError, noLength, permutation, written⟩ := h.operation.2.1 ph
  exact ⟨h.memory, h.counters, invalid, noError, noLength, permutation, written⟩

theorem State.InPass.inv {s : State} (h : s.InPass) (ph : s.PH = .ksa) : s.Inv := by
  refine ⟨h.memory, h.counters, ⟨?_, ?_, ?_⟩, ⟨?_, ?_, ?_, ?_⟩, ?_⟩ <;>
    simp [ph, h.invalid, h.noError, h.noLength, h.permutation, h.written]

theorem State.InPass.enterPass {s : State} (h : s.InPass) (ph : s.PH = .ksa) {p : BitVec 2} (hp : p ≠ 3#2) :
    (s.enterPass p).Inv := by
  unfold State.enterPass
  split_ifs
  · exact State.InPass.inv ⟨h.memory, ⟨by simp, hp⟩, h.invalid, h.noError, h.noLength, h.permutation, h.written⟩ ph
  · exact (h.withPass hp).raise _

theorem State.nextPass_ne {s : State} {p : BitVec 2} (h : s.nextPass = some p) : p ≠ 3#2 := by
  unfold State.nextPass at h
  split_ifs at h <;> cases h <;> decide

end Sys2Proof.Machine
end

