-- ==== Sys2Proof/Laws/PerInstr.lean ====
section
/-! SUPPORT. One statement per instruction, as a word: it is well formed, has the width of its row of spec/opcode_table.json,
and lies under the row's mask and match (R83, R86). -/

namespace Sys2Proof.Laws.FitsRow

/-- Width, mask and match of an instruction's row (R86; the beat's value in 32 bits). -/
def row : Instr → Nat × CommandWord × CommandWord
  | .init _ _ => (32, 0xFFFF0000#32, 0x01000000#32)
  | .init3 _ _ => (32, 0xFFFF0000#32, 0x02000000#32)
  | .xform => (32, 0xFFFFFFFF#32, 0x03000000#32)
  | .wipe => (32, 0xFFFFFFFF#32, 0x04000000#32)
  | .data _ => (8, 0x00000000#32, 0x00000000#32)

/-- Width and value of a beat. -/
def beatValue : Beat → Nat × CommandWord
  | .command w => (32, w)
  | .data d => (8, d.zeroExtend 32)

/-- The instruction's beat has its row's width and lies under its row's mask and match. -/
def Statement (i : Instr) : Prop :=
  i.wellFormed = true ∧ (beatValue (encode i)).1 = (row i).1 ∧ (beatValue (encode i)).2 &&& (row i).2.1 = (row i).2.2

/-- A word of format `L2` under the mask of its row. -/
theorem and_maskL2_wordOf (op b a : Byte) :
    wordOf { op := op, rsv := 0x00#8, b := b, a := a } &&& 0xFFFF0000#32 =
      wordOf { op := op, rsv := 0x00#8, b := 0x00#8, a := 0x00#8 } := by
  rw [and_maskL2, fieldsOf_wordOf]

theorem matchInit : wordOf { op := 0x01#8, rsv := 0x00#8, b := 0x00#8, a := 0x00#8 } = 0x01000000#32 := by decide

theorem matchInit3 : wordOf { op := 0x02#8, rsv := 0x00#8, b := 0x00#8, a := 0x00#8 } = 0x02000000#32 := by decide

theorem init (klen ivlen : Byte) : Statement (.init klen ivlen) :=
  ⟨rfl, rfl, (and_maskL2_wordOf 0x01#8 ivlen klen).trans matchInit⟩

theorem init3 (klen ivlen : Byte) : Statement (.init3 klen ivlen) :=
  ⟨rfl, rfl, (and_maskL2_wordOf 0x02#8 ivlen klen).trans matchInit3⟩

theorem xform : Statement .xform := ⟨rfl, rfl, by decide⟩

theorem wipe : Statement .wipe := ⟨rfl, rfl, by decide⟩

theorem data (d : Byte) : Statement (.data d) := ⟨rfl, rfl, BitVec.and_zero⟩

end Sys2Proof.Laws.FitsRow
end

