-- ==== Sys2Proof/Tests/Slice0.lean ====
section
/-! SUPPORT. Tests. Expected values come from spec/: 30_encoding.md, and the tables of 95_test_vectors.md. After them, for
every statement with hypotheses, a witness that meets them. -/

namespace Sys2Proof.Tests

open Sys2Proof Sys2Proof.Machine

/-! ### WellFormed: each check refuses an ill-formed term -/

/-- R87 item 1: `OP = 0x00` and `OP = 0x05`. -/
theorem test_wellFormed_opcode :
    ({ op := 0x00#8, rsv := 0x00#8, b := 0x10#8, a := 0x10#8 } : CommandFields).wellFormed = false ∧
    ({ op := 0x05#8, rsv := 0x00#8, b := 0x00#8, a := 0x00#8 } : CommandFields).wellFormed = false := by decide

/-- R87 item 2: `INIT` with `RSV = 0x01`. -/
theorem test_wellFormed_rsv :
    ({ op := 0x01#8, rsv := 0x01#8, b := 0x10#8, a := 0x10#8 } : CommandFields).wellFormed = false := by decide

/-- R87 item 3: `XFORM` with `A = 0x01`, `WIPE` with `B = 0x10`. -/
theorem test_wellFormed_formatZ :
    ({ op := 0x03#8, rsv := 0x00#8, b := 0x00#8, a := 0x01#8 } : CommandFields).wellFormed = false ∧
    ({ op := 0x04#8, rsv := 0x00#8, b := 0x10#8, a := 0x00#8 } : CommandFields).wellFormed = false := by decide

/-- The fields of `INIT 40, 0` are well formed (R89). -/
theorem test_wellFormed_init :
    ({ op := 0x01#8, rsv := 0x00#8, b := 0x00#8, a := 0x28#8 } : CommandFields).wellFormed = true := by decide

/-! ### Decoding: words written out from the encodings of R82 to R86 -/

/-- `INIT klen = 16, ivlen = 15`: `0000_0001 0000_0000 0000_1111 0001_0000` (file 95, 2.4: 0x01000F10). -/
theorem test_decode_init : decode (.command 0b00000001000000000000111100010000#32) = .ok (.init 16#8 15#8) := by decide

/-- `INIT3 klen = 64, ivlen = 40`: `0000_0010 0000_0000 0010_1000 0100_0000` (file 95, 2.2: 0x02002840). -/
theorem test_decode_init3 : decode (.command 0b00000010000000000010100001000000#32) = .ok (.init3 64#8 40#8) := by decide

theorem test_decode_xform : decode (.command 0b00000011000000000000000000000000#32) = .ok .xform := by decide

theorem test_decode_wipe : decode (.command 0b00000100000000000000000000000000#32) = .ok .wipe := by decide

theorem test_decode_data : decode (.data 0b10100101#8) = .ok (.data 0xA5#8) := by decide

/-- The refused words of file 95, 2.4. -/
theorem test_decode_reserved :
    decode (.command 0x00000000#32) = .error .opcode ∧ decode (.command 0x05000000#32) = .error .opcode ∧
    decode (.command 0xFFFFFFFF#32) = .error .opcode ∧ decode (.command 0x01011010#32) = .error .rsvField ∧
    decode (.command 0x03000001#32) = .error .formatZ ∧ decode (.command 0x04001000#32) = .error .formatZ := by decide

theorem test_decodeTableWord :
    decodeTableWord 32 0x01001010 = some (.init 16#8 16#8) ∧ decodeTableWord 32 0x04000000 = some .wipe ∧
    decodeTableWord 8 0x5A = some (.data 0x5A#8) ∧ decodeTableWord 32 0x05000000 = none := by decide

/-! ### One step -/

/-- What `next` carries, read through `f`. -/
def after {α : Type} (f : State → α) : Result → Option α
  | .next t => some (f t)
  | .fault _ => none
  | .refused _ => none

/-- KSA round 4 of file 95, 2.1: `S = 48`, `P[04] = 04`, key byte `B7`, index `03`, `s' = P[03] = 48`, `b = P[48] = 03`. -/
theorem test_ksaRound_4 :
    let s : State := { State.reset with P := [(0x03, 0x48#8), (0x04, 0x04#8), (0x48, 0x03#8)], S := 0x48#8, M := 4#10, J := 4#6,
                                        MAT := [(4, 0xB7#8)] }
    let t := s.ksaRound 0#1 16#8
    t.S = 0x48#8 ∧ t.M = 5#10 ∧ t.J = 5#6 ∧ t.P = [(0x03, 0x48#8), (0x04, 0x03#8), (0x48, 0x04#8)] := by decide +kernel

/-- KSA round 767 of file 95, 2.1: `n = FF`, `idx = BD`, `s' = A0`, `b = 77`, the last key byte `C7`; `J` wraps to 0. The `S`
before is `BD - 9A - C7 = 5C`. -/
theorem test_ksaRound_767 :
    let s : State := { State.reset with P := [(0xA0, 0x77#8), (0xBD, 0xA0#8), (0xFF, 0x9A#8)], S := 0x5C#8, M := 767#10, J := 15#6,
                                        MAT := [(15, 0xC7#8)] }
    let t := s.ksaRound 0#1 16#8
    t.S = 0xA0#8 ∧ t.M = 768#10 ∧ t.J = 0#6 ∧ t.P = [(0xA0, 0x9A#8), (0xBD, 0xA0#8), (0xFF, 0x77#8)] := by decide +kernel

/-- `INIT 15, 0` (file 95, 2.4): STATUS 0x0F04. -/
theorem test_init_badKey : after State.status (exec (.init 15#8 0#8) State.reset) = some 0x0F04#16 := by decide +kernel

/-- `INIT 16, 0` (file 95, 2.4): STATUS 0x0002. -/
theorem test_init_good : after State.status (exec (.init 16#8 0#8) State.reset) = some 0x0002#16 := by
  have good : (State.reset.initCommand false 16#8 0#8).status = 0x0002#16 := by
    rw [State.initCommand_eq, if_neg (by decide), if_pos rfl, if_neg (by decide)]
    exact State.status_completeInit (by simp) (by simp) (by simp)
  rw [exec_init (by decide), after, good]

/-- `INIT3 10, 70` (file 95, 2.4): the key length is reported, STATUS 0x0A04. -/
theorem test_init3_keyFirst : after State.status (exec (.init3 10#8 70#8) State.reset) = some 0x0A04#16 := by decide +kernel

/-- `INIT3 64, 1` (file 95, 2.4): STATUS 0x0104. -/
theorem test_init3_badIv : after State.status (exec (.init3 64#8 1#8) State.reset) = some 0x0104#16 := by
  have bad : (State.reset.initCommand true 64#8 1#8).status = 0x0104#16 := by
    rw [State.initCommand_eq, if_neg (by decide), if_neg (by decide), if_pos (by decide)]
    simp only [State.status, State.strm, State.busy, State.raiseInvalidSize_ERRLEN, State.raiseInvalidSize_PH,
      State.raiseInvalidSize_ILL, State.raiseInvalidSize_ERR, State.raiseInvalidSize_V, State.keyed_ILL, State.keyed_V]
    decide
  rw [exec_init3 (by decide), after, bad]

/-- `XFORM` after reset is refused: STATUS 0x0008 (R91, R173). -/
theorem test_xform_invalid : after State.status (exec .xform State.reset) = some 0x0008#16 := by decide

/-- `XFORM` on a valid engine: STATUS 0x0012 (R91), `N = 0`. -/
theorem test_xform_valid :
    after (fun t => (t.status, t.N)) (exec .xform { State.reset with V := true, N := 7#8 }) = some (0x0012#16, 0#8) := by decide

/-- Keystream step 0 of file 95, 2.3: `P[00] = 3F`, `S = B2`, index `F1`, `s' = 1A`, `b = FA`, `c = 71`, `z = P[72] = A8`. -/
theorem test_data_step0 :
    let s : State := { State.reset with
      P := [(0x00, 0x3F#8), (0x1A, 0xFA#8), (0x72, 0xA8#8), (0xF1, 0x1A#8), (0xFA, 0x71#8)], S := 0xB2#8, PH := .stream, V := true }
    after (fun t => (t.outQ, t.S, t.N, t.P)) (exec (.data 0x00#8) s) =
      some ([0xA8#8], 0x1A#8, 1#8, [(0x00, 0xFA#8), (0x1A, 0x3F#8), (0x72, 0xA8#8), (0xF1, 0x1A#8), (0xFA, 0x71#8)]) := by
  decide +kernel

/-- Keystream step 3 of file 95, 2.3, on the data byte FF: index = n = `03`, `s' = 67`, `b = 49`, `c = 78`, `z = P[79] = F5`. -/
theorem test_data_step3 :
    let s : State := { State.reset with
      P := [(0x03, 0x67#8), (0x49, 0x78#8), (0x67, 0x49#8), (0x79, 0xF5#8)], S := 0x9C#8, N := 3#8, PH := .stream, V := true }
    after (fun t => (t.outQ, t.S, t.N, t.P)) (exec (.data 0xFF#8) s) =
      some ([0xF5#8 ^^^ 0xFF#8], 0x67#8, 4#8, [(0x03, 0x49#8), (0x49, 0x78#8), (0x67, 0x67#8), (0x79, 0xF5#8)]) := by
  decide +kernel

/-- `WIPE` (R160): STATUS 0x0000, `S` and `N` zero, `J` and `M` kept. -/
theorem test_wipe :
    after (fun t => (t.status, t.S, t.N, t.M, t.J))
      (exec .wipe { State.reset with S := 0xA0#8, N := 9#8, V := true, ERRLEN := 1#8, M := 768#10, J := 3#6 }) =
      some (0x0000#16, 0x00#8, 0x00#8, 768#10, 3#6) := by decide +kernel

/-- A reserved word in an open call (file 95, 2.4): it closes the call, STATUS 0x000A. -/
theorem test_reserved_closes_call :
    after State.status (step { State.reset with V := true, PH := .stream, host := [.cmd 0x01011010#32] }) =
      some 0x000A#16 := by decide +kernel

/-- `INIT 256, 16` cannot be encoded and is reported (R214); that the items beside it are not offered is log 16. -/
theorem test_assemble_256 : assemble [.xform, .init 256 16, .wipe] = .error 256 := by decide

/-! ### States for the witnesses -/

/-- Reset, with a command word offered. -/
def offering (w : CommandWord) : State := { State.reset with host := [.cmd w] }

/-- A sound engine that is ready: the identity written whole. -/
def readyState : State := { State.reset with P := Memory.storeAll id [], V := true }

/-- The same with a call open. -/
def streamingState : State := { readyState with PH := .stream }

/-- Inside a zeroization. -/
def wipingState : State := { State.reset with PH := .wiping }

theorem readyState_readP (a : Byte) : readyState.readP a = a := State.readP_storeAll State.reset id a

theorem readyState_permutation : readyState.IsPermutation := by
  have identity : readyState.readP = id := funext readyState_readP
  rw [State.IsPermutation, identity]
  exact Function.bijective_id

theorem readyState_written : readyState.FullyWritten := State.fullyWritten_storeAll State.reset id

theorem reset_memoryOk : State.reset.MemoryOk := ⟨Memory.wf_nil _, Memory.wf_nil _⟩

theorem reset_countersOk : State.reset.CountersOk := by simp [State.CountersOk, State.reset]

theorem reset_inv : State.reset.Inv := State.inv_of_spent reset_memoryOk reset_countersOk rfl rfl fun _ => rfl

theorem readyState_memoryOk : readyState.MemoryOk := ⟨Memory.wf_storeAll _ (Memory.wf_nil _), Memory.wf_nil _⟩

theorem readyState_inv : readyState.Inv :=
  State.inv_of_valid readyState_memoryOk reset_countersOk rfl rfl readyState_permutation readyState_written (.inl rfl)

theorem streamingState_inv : streamingState.Inv :=
  State.inv_of_valid (s := streamingState) readyState_memoryOk reset_countersOk rfl rfl readyState_permutation readyState_written
    (.inr ⟨rfl, rfl, rfl⟩)

/-! ### Witnesses -/

theorem witness_DecodeInvertsEncode :
    (Instr.init 255#8 0#8).wellFormed = true ∧ encode (.init 255#8 0#8) = .command 0x010000FF#32 ∧
    (Instr.data 0xFF#8).wellFormed = true ∧ encode (.data 0xFF#8) = .data 0xFF#8 := by decide

theorem witness_EncodeInvertsDecode : decode (.command 0x02000010#32) = .ok (.init3 16#8 0#8) := by decide

theorem witness_ReservedWordsAreRefused :
    ∀ w ∈ [0x00000000#32, 0x05000000#32, 0xFF000000#32, 0x01010000#32, 0x02FF0000#32, 0x03000001#32, 0x04800000#32],
      (offering w).nextOffer = some (.cmd w, []) ∧ (offering w).cmdReady = true ∧ ∃ r, decodeCommand w = .error r := by
  intro w hw
  fin_cases hw <;> exact ⟨rfl, rfl, _, rfl⟩

theorem witness_LengthsAbove255 : 255 < 256 ∧ (255 ≤ 255 ∧ 255 < 256) ∧ (10 ≤ 255 ∧ 255 < 300) ∧ (255 ≤ 255 ∧ 255 ≤ 255) := by decide

/-- RstResetsWhateverWasRunning, RstLeavesTheHostsSide: in a zeroization, and in a call with an output outstanding. -/
theorem witness_Rst :
    ({ wipingState with host := [.data 1#8, .rst] } : State).nextOffer = some (.rst, [.data 1#8]) ∧
    ({ streamingState with host := [.rst], outQ := [1#8] } : State).nextOffer = some (.rst, []) := ⟨rfl, rfl⟩

/-- StepRunsTheDecodedInstruction, its three clauses. -/
theorem witness_StepRuns :
    ((offering 0x04000000#32).nextOffer = some (.cmd 0x04000000#32, []) ∧ (offering 0x04000000#32).cmdReady = true ∧
      decodeCommand 0x04000000#32 = .ok .wipe) ∧
    ({ streamingState with host := [.data 1#8] } : State).nextOffer = some (.data 1#8, []) ∧
    decodeTableWord 32 0x03000000 = some .xform ∧ decodeTableWord 8 0 = some (.data 0#8) := by
  refine ⟨⟨rfl, rfl, rfl⟩, rfl, ?_, ?_⟩ <;> decide

theorem witness_CommandsWait :
    wipingState.cmdReady = false ∧
    (({ wipingState with host := [.cmd 0#32] } : State).nextOffer = some (.cmd 0#32, []) ∧
      ({ wipingState with host := [.cmd 0#32] } : State).cmdReady = false ∧
      ({ wipingState with host := [.cmd 0#32] } : State).busy = true) ∧
    (({ streamingState with host := [.cmd 0#32], outQ := [1#8] } : State).nextOffer = some (.cmd 0#32, []) ∧
      ({ streamingState with host := [.cmd 0#32], outQ := [1#8] } : State).cmdReady = false ∧
      ({ streamingState with host := [.cmd 0#32], outQ := [1#8] } : State).busy = false) :=
  ⟨rfl, ⟨rfl, rfl, rfl⟩, rfl, rfl, rfl⟩

theorem witness_DataOutside :
    (State.reset.PH ≠ .stream ∧ wipingState.PH ≠ .stream) ∧
    (({ State.reset with host := [.data 1#8, .data 2#8] } : State).PH = .idle ∧
      ({ State.reset with host := [.data 1#8, .data 2#8] } : State).outQ = [] ∧
      ({ State.reset with host := [.data 1#8, .data 2#8] } : State).host = [1#8, 2#8].map HostEvent.data) := by
  decide

theorem witness_OffersInOrder :
    ({ State.reset with host := [.data 1#8, .cmd 0#32, .take] } : State).nextOffer = some (.cmd 0#32, [.data 1#8, .take]) ∧
    ({ streamingState with host := [.data 1#8, .cmd 0#32] } : State).nextOffer = some (.data 1#8, [.cmd 0#32]) := ⟨rfl, rfl⟩

/-- A step from every kind of state: WholeCommandsSeeIdleAndStream, OnlyTheHostWritesMaterial,
StickyMarkRecordsEveryRefusal, and the busy and not busy clauses of StatusWordBitByBit. -/
theorem witness_step :
    (∃ t, step State.reset = .next t ∧ State.reset.busy = false) ∧
    (∃ t, step wipingState = .next t ∧ wipingState.busy = true) ∧
    (∃ t, step { streamingState with host := [.data 1#8] } = .next t ∧ streamingState.busy = false) :=
  ⟨⟨_, rfl, rfl⟩, ⟨_, rfl, rfl⟩, _, rfl, rfl⟩

/-- TakeDeliversTheOldestByte, its three clauses: nothing outstanding, two bytes outstanding, an operation running. -/
theorem witness_Take :
    (({ State.reset with host := [.take] } : State).nextOffer = some (.take, []) ∧
      ({ State.reset with host := [.take] } : State).busy = false ∧
      ({ State.reset with host := [.take] } : State).outQ = []) ∧
    (({ streamingState with host := [.take], outQ := [1#8, 2#8] } : State).nextOffer = some (.take, []) ∧
      ({ streamingState with host := [.take], outQ := [1#8, 2#8] } : State).busy = false ∧
      ({ streamingState with host := [.take], outQ := [1#8, 2#8] } : State).outQ = 1#8 :: [2#8]) ∧
    (({ wipingState with host := [.take] } : State).nextOffer = some (.take, []) ∧
      ({ wipingState with host := [.take] } : State).busy = true) :=
  ⟨⟨rfl, rfl, rfl⟩, ⟨rfl, rfl, rfl⟩, rfl, rfl⟩

/-- OutputsKeepTheirOrder, its clauses on a data beat and on `rst`; a step from reset has neither offer. -/
theorem witness_Outputs :
    (∃ t, step { streamingState with host := [.data 1#8] } = .next t) ∧
    ({ streamingState with host := [.data 1#8] } : State).nextOffer = some (.data 1#8, []) ∧
    (∃ t, step { streamingState with host := [.rst], outQ := [1#8] } = .next t) ∧
    ({ streamingState with host := [.rst], outQ := [1#8] } : State).nextOffer = some (.rst, []) ∧
    (∃ t, step State.reset = .next t) ∧ State.reset.nextOffer = none :=
  ⟨⟨_, rfl⟩, rfl, ⟨_, rfl⟩, rfl, ⟨_, rfl⟩, rfl⟩

theorem witness_OnlyTheHostWritesMaterial :
    ({ State.reset with host := [.mat (matAddress 1#1 63#6) 7#8] } : State).nextOffer =
      some (.mat (matAddress 1#1 63#6) 7#8, []) ∧
    ({ State.reset with host := [.mat (matAddress 1#1 63#6) 7#8] } : State).busy = false := ⟨rfl, rfl⟩

theorem witness_Swap : readyState.IsPermutation ∧ (0#8 : Byte) ≠ 1#8 ∧ (0#8 : Byte) ≠ 2#8 :=
  ⟨readyState_permutation, by decide, by decide⟩

theorem witness_Fill : State.reset.MemoryOk ∧ readyState.MemoryOk := ⟨reset_memoryOk, readyState_memoryOk⟩

theorem witness_KsaRound :
    ({ State.reset with J := 15#6 } : State).J.toNat + 1 = (16#8 : Byte).toNat ∧
    ({ State.reset with J := 63#6 } : State).J.toNat + 1 = (64#8 : Byte).toNat ∧
    State.reset.J.toNat + 1 ≠ (16#8 : Byte).toNat := by decide

theorem witness_MaterialIndex :
    State.reset.M = 0#10 ∧ State.reset.J = 0#6 ∧
    (16 ≤ (16#8 : Byte).toNat ∧ (16#8 : Byte).toNat ≤ 64 ∧ 0 ≤ 768) ∧
    (16 ≤ (64#8 : Byte).toNat ∧ (64#8 : Byte).toNat ≤ 64 ∧ 768 ≤ 768) := by decide

theorem witness_SchedulePass :
    (16 ≤ (16#8 : Byte).toNat ∧ (16#8 : Byte).toNat ≤ 64) ∧ (16 ≤ (64#8 : Byte).toNat ∧ (64#8 : Byte).toNat ≤ 64) ∧
    ((15#8 : Byte).toNat < 16 ∨ 64 < (15#8 : Byte).toNat) ∧ ((65#8 : Byte).toNat < 16 ∨ 64 < (65#8 : Byte).toNat) := by decide

theorem witness_SchedulePassKeepsPermutation :
    readyState.IsPermutation ∧ (∃ t, readyState.ksaPass 0#1 16#8 = .ok t) ∧ ∃ t, readyState.ksaPass 0#1 15#8 = .error t :=
  ⟨readyState_permutation, ⟨readyState.ksaRun 0#1 16#8, if_pos (by decide)⟩,
    ⟨readyState.raiseInvalidSize 15#8, if_neg (by decide)⟩⟩

/-- Admitted lengths at their bounds, and an engine that accepts a command in each lifecycle condition. -/
theorem witness_InitializationCompletes :
    (State.reset.cmdReady = true ∧ readyState.cmdReady = true ∧ streamingState.cmdReady = true) ∧
    (AdmittedKey 16#8 ∧ AdmittedKey 64#8) ∧ AdmittedIv 0#8 ∧ AdmittedIv 16#8 ∧ AdmittedIv 64#8 :=
  ⟨⟨rfl, rfl, rfl⟩, ⟨⟨by decide, by decide⟩, by decide, by decide⟩, .inl rfl, .inr ⟨by decide, by decide⟩,
    .inr ⟨by decide, by decide⟩⟩

theorem witness_BadKeyLength :
    State.reset.cmdReady = true ∧ ∀ klen ∈ [0#8, 15#8, 65#8, 255#8], klen.toNat < 16 ∨ 64 < klen.toNat := by decide

theorem witness_BadIvLength :
    State.reset.cmdReady = true ∧ AdmittedKey 16#8 ∧ AdmittedKey 64#8 ∧
    ∀ ivlen ∈ [1#8, 15#8, 65#8, 255#8], ivlen ≠ 0x00#8 ∧ (ivlen.toNat < 16 ∨ 64 < ivlen.toNat) :=
  ⟨rfl, ⟨by decide, by decide⟩, ⟨by decide, by decide⟩, by decide⟩

/-- Init3FailsExactlyWhenInitDoes, InitImplementsTheStandardProtocol, Init3ImplementsTheStrengthenedProtocol,
WipeZeroesTheCipherState, IllDescribesTheLastCommandWord: a command is accepted. -/
theorem witness_cmdReady : State.reset.cmdReady = true ∧ streamingState.cmdReady = true := ⟨rfl, rfl⟩

/-- Banks that differ in the IV only. -/
theorem witness_IvBank :
    let s : State := { State.reset with MAT := [(64, 1#8)] }
    s.cmdReady = true ∧ ∀ idx, ({ s with MAT := [(64, 2#8), (127, 3#8)] } : State).matRead 0#1 idx = s.matRead 0#1 idx := by
  refine ⟨rfl, fun idx => ?_⟩
  have small : (matAddress 0#1 idx).toNat < 64 := by revert idx; decide
  have first : (64 : Nat) ≠ (matAddress 0#1 idx).toNat := by omega
  have last : (127 : Nat) ≠ (matAddress 0#1 idx).toNat := by omega
  simp only [State.matRead, Memory.lookup, if_neg first, if_neg last]

/-- Banks that differ beyond the lengths 16 and 16 only. -/
theorem witness_MaterialBeyondTheLength :
    let s : State := State.reset
    let banks : Memory := [(16, 1#8), (80, 2#8)]
    s.cmdReady = true ∧
    (∀ idx : BitVec 6, idx.toNat < (16#8 : Byte).toNat → ({ s with MAT := banks } : State).matRead 0#1 idx = s.matRead 0#1 idx) ∧
    (∀ idx : BitVec 6, idx.toNat < (16#8 : Byte).toNat → ({ s with MAT := banks } : State).matRead 1#1 idx = s.matRead 1#1 idx) := by
  refine ⟨rfl, fun idx below => ?_, fun idx below => ?_⟩
  · have first : (16 : Nat) ≠ (matAddress 0#1 idx).toNat := by revert idx; decide
    have last : (80 : Nat) ≠ (matAddress 0#1 idx).toNat := by revert idx; decide
    simp only [State.matRead, State.reset, Memory.lookup, if_neg first, if_neg last]
  · have first : (16 : Nat) ≠ (matAddress 1#1 idx).toNat := by revert idx; decide
    have last : (80 : Nat) ≠ (matAddress 1#1 idx).toNat := by revert idx; decide
    simp only [State.matRead, State.reset, Memory.lookup, if_neg first, if_neg last]

theorem witness_EveryOperationEnds :
    ({ State.reset with PH := .fill } : State).CountersOk ∧
    ({ State.reset with PH := .ksa, M := 768#10, PASS := 2#2 } : State).CountersOk := by
  simp [State.CountersOk, State.reset, rounds_eq]

/-- XformOpensACall, both clauses; CallImplementsTheTransform and EmptyCallChangesNothing by the first. -/
theorem witness_Xform :
    (readyState.cmdReady = true ∧ readyState.V = true) ∧ (State.reset.cmdReady = true ∧ State.reset.V = false) :=
  ⟨⟨rfl, rfl⟩, rfl, rfl⟩

theorem witness_Illegal :
    (State.reset.cmdReady = true ∧ State.reset.V = false) ∧
    ((offering 0x05000000#32).nextOffer = some (.cmd 0x05000000#32, []) ∧ (offering 0x05000000#32).cmdReady = true ∧
      decodeCommand 0x05000000#32 = .error .opcode) ∧
    (∃ t, step { offering 0x04000000#32 with ILL := true } = .next t ∧ t.ILL = false) ∧
    (∃ t, step { State.reset with ILL := true, host := [.rst] } = .next t ∧ t.ILL = false) :=
  ⟨⟨rfl, rfl⟩, ⟨rfl, rfl, rfl⟩, ⟨_, rfl, rfl⟩, _, rfl, rfl⟩

theorem witness_DataBeat : streamingState.PH = .stream := rfl

theorem witness_KeystreamIsIndependent : streamingState.PH = .stream ∧ [1#8, 2#8].length = [3#8, 4#8].length := ⟨rfl, rfl⟩

/-- A sender and a receiver whose other registers differ. -/
theorem witness_Decryption :
    let u : State := { streamingState with KL := 16#8, X := true, outQ := [9#8] }
    streamingState.PH = .stream ∧ u.PH = .stream ∧ u.cipher = streamingState.cipher ∧ u.N = streamingState.N :=
  ⟨rfl, rfl, rfl, rfl⟩

theorem witness_Cuts :
    readyState.cmdReady = true ∧ readyState.V = true ∧ (List.replicate 256 (0#8 : Byte)).length % 256 = 0 ∧
    ([] : List Byte).length % 256 = 0 := ⟨rfl, rfl, by rw [List.length_replicate], rfl⟩

theorem witness_OpenCall : readyState.IsPermutation ∧ streamingState.Inv ∧ streamingState.PH = .stream :=
  ⟨readyState_permutation, streamingState_inv, rfl⟩

theorem witness_WipeIsIdempotent : readyState.MemoryOk ∧ readyState.cmdReady = true := ⟨readyState_memoryOk, rfl⟩

/-- `V` set at the end of a last pass, and by an `INIT 16, 0` run whole; `V` cleared by `rst`, by `WIPE` and by an `INIT`. -/
theorem witness_Valid :
    (∃ t, step { State.reset with PH := .ksa, M := 768#10 } = .next t ∧ t.V = true) ∧
    (∃ t, step (offering 0x01000010#32) = .next t ∧ t.V = true) ∧
    (∃ t, step { readyState with host := [.rst] } = .next t ∧ t.V = false) ∧
    (∃ t, step { readyState with host := [.cmd 0x04000000#32] } = .next t ∧ t.V = false) ∧
    (∃ t, step { readyState with host := [.cmd 0x0100000F#32] } = .next t ∧ t.V = false) := by
  refine ⟨⟨_, rfl, rfl⟩, ⟨_, (StepCase.init (klen := 16#8) (ivlen := 0#8) rfl rfl (by decide)).step, ?_⟩, ⟨_, rfl, rfl⟩,
    ⟨_, rfl, rfl⟩, ⟨_, (StepCase.init (klen := 15#8) (ivlen := 0#8) rfl rfl (by decide)).step, ?_⟩⟩ <;>
  · rw [State.initCommand_V]
    decide

theorem witness_Ill :
    ((offering 0x03000000#32).nextOffer = some (.cmd 0x03000000#32, []) ∧ (offering 0x03000000#32).cmdReady = true) ∧
    ({ State.reset with host := [.rst] } : State).nextOffer = some (.rst, []) ∧
    ((∃ t, step wipingState = .next t) ∧ (∀ rest, wipingState.nextOffer ≠ some (.rst, rest)) ∧
      ∀ w rest, wipingState.nextOffer = some (.cmd w, rest) → wipingState.cmdReady = false) :=
  ⟨⟨rfl, rfl⟩, rfl, ⟨_, rfl⟩, fun _ h => (by cases h), fun _ _ _ => rfl⟩

/-- The length clauses of R25 and R27 at boundary values; a state that `DATA`, `XFORM` and a refused word lead to. -/
theorem witness_Err :
    ¬ AdmittedKey 15#8 ∧ ¬ AdmittedKey 65#8 ∧ (AdmittedKey 16#8 ∧ ¬ AdmittedIv 15#8) ∧ (AdmittedKey 64#8 ∧ ¬ AdmittedIv 65#8) ∧
    (∃ t, exec (.data 1#8) streamingState = .next t) ∧ (∃ t, exec .xform readyState = .next t) := by
  refine ⟨?_, ?_, ?_, ?_, ⟨_, rfl⟩, ⟨_, rfl⟩⟩ <;> simp [AdmittedKey, AdmittedIv]

theorem witness_Lifecycle :
    (State.reset.Inv ∧ State.reset.cmdReady = true ∧ State.reset.lifecycle = .invalid) ∧
    (readyState.Inv ∧ readyState.cmdReady = true ∧ readyState.lifecycle = .ready) ∧
    (streamingState.Inv ∧ streamingState.cmdReady = true ∧ streamingState.lifecycle = .streaming) :=
  ⟨⟨reset_inv, rfl, rfl⟩, ⟨readyState_inv, rfl, rfl⟩, streamingState_inv, rfl, rfl⟩

theorem witness_EveryStepKeepsTheStateSound :
    (readyState.Inv ∧ ∃ t, step readyState = .next t) ∧ streamingState.Inv ∧ ∃ t, step streamingState = .next t :=
  ⟨⟨readyState_inv, _, rfl⟩, streamingState_inv, _, rfl⟩

/-- Indistinguishable engines: a valid one with another epoch, another `N` and other sequencer registers; the same in a call,
with the `N` of the call; an invalid one with another `S` and other counters. -/
theorem witness_Leftovers :
    (readyState.Inv ∧ ({ readyState with pEpoch := 5, N := 9#8, M := 768#10, PASS := 2#2, KL := 16#8, X := true } : State).Inv ∧
      Indistinguishable readyState
        { readyState with pEpoch := 5, N := 9#8, M := 768#10, PASS := 2#2, KL := 16#8, X := true }) ∧
    (streamingState.Inv ∧ ({ streamingState with pEpoch := 5, M := 768#10, J := 1#6 } : State).Inv ∧
      Indistinguishable streamingState { streamingState with pEpoch := 5, M := 768#10, J := 1#6 }) ∧
    (State.reset.Inv ∧ ({ State.reset with S := 7#8, M := 768#10, KL := 3#8 } : State).Inv ∧
      Indistinguishable State.reset { State.reset with S := 7#8, M := 768#10, KL := 3#8 }) := by
  have counters : (768#10).toNat ≤ Config.rounds := by rw [rounds_eq]; decide
  refine ⟨⟨readyState_inv, ?_, ?_⟩, ⟨streamingState_inv, ?_, ?_⟩, reset_inv, ?_, ?_⟩
  · exact State.inv_of_valid readyState_memoryOk ⟨counters, by decide⟩ rfl rfl
      (State.isPermutation_of_written readyState_permutation readyState_written rfl) readyState_written (.inl rfl)
  · exact ⟨⟨rfl, rfl, rfl, rfl, rfl, rfl⟩, rfl, rfl, rfl, rfl, fun h => (by cases h), fun h => (by cases h), fun _ => ⟨rfl, rfl⟩⟩
  · exact State.inv_of_valid readyState_memoryOk ⟨counters, by decide⟩ rfl rfl
      (State.isPermutation_of_written readyState_permutation readyState_written rfl) readyState_written (.inr ⟨rfl, rfl, rfl⟩)
  · exact ⟨⟨rfl, rfl, rfl, rfl, rfl, rfl⟩, rfl, rfl, rfl, rfl, fun _ => rfl, fun h => (by cases h), fun _ => ⟨rfl, rfl⟩⟩
  · exact State.inv_of_spent reset_memoryOk ⟨counters, by decide⟩ rfl rfl fun _ => rfl
  · exact ⟨⟨rfl, rfl, rfl, rfl, rfl, rfl⟩, rfl, rfl, rfl, rfl, fun h => (by cases h), fun h => (by cases h),
      fun h => absurd ⟨rfl, rfl⟩ h⟩

end Sys2Proof.Tests
end

/-! PROOFS. The statements of 10_state.md: what every step keeps (R36), the status word (R31, R32), the sequencer beside the
whole command (R29, D1), and who writes `V`, `ILL` and `ERR` (R24 to R27). -/

namespace Sys2Proof.Machine

/-! ### Entering and ending a pass -/

theorem State.passLength_iv (s : State) : s.passLength 1#2 = s.IL := rfl

theorem State.enterPass_ok {s : State} {p : BitVec 2} (ok : lengthOk (s.passLength p) = true) :
    s.enterPass p = { s with PASS := p, M := 0#10, J := 0#6 } := if_pos ok

theorem State.enterPass_bad {s : State} {p : BitVec 2} (bad : lengthOk (s.passLength p) = false) :
    s.enterPass p = ({ s with PASS := p } : State).raiseInvalidSize (s.passLength p) := by
  rw [State.enterPass, bad]
  rfl

@[simp] theorem State.enterPass_V (s : State) (p : BitVec 2) : (s.enterPass p).V = s.V := by
  unfold State.enterPass
  split_ifs <;> rfl

theorem State.endPass_some {s : State} {p : BitVec 2} (h : s.nextPass = some p) : s.endPass = s.enterPass p := by
  rw [State.endPass, h]

theorem State.endPass_none {s : State} (h : s.nextPass = none) : s.endPass = s.completeInit := by
  rw [State.endPass, h]

/-! ### Every step keeps the state sound (R36) -/

theorem State.InPass.ksaRound {s : State} (h : s.InPass) (m : s.M ≠ 768#10) (bank : BitVec 1) (L : Byte) :
    (s.ksaRound bank L).InPass where
  memory := ⟨State.wf_ksaRound h.memory.1 bank L, h.memory.2⟩
  counters := by
    have bound : s.M.toNat ≤ 768 := rounds_eq ▸ h.counters.1
    have notLast : s.M.toNat ≠ 768 := fun e => m (BitVec.eq_of_toNat_eq e)
    refine ⟨?_, h.counters.2⟩
    rw [State.M_toNat_ksaRound (by omega), rounds_eq]
    omega
  invalid := h.invalid
  noError := h.noError
  noLength := h.noLength
  permutation := State.isPermutation_ksaRound h.permutation bank L
  written := State.fullyWritten_ksaRound h.written bank L

/-- The fill makes `P` a permutation with no unspecified byte, so the passes may start (R114). -/
theorem State.Inv.inPass_of_fill {s : State} (h : s.Inv) (ph : s.PH = .fill) :
    ({ s.identityFill with PH := .ksa } : State).InPass where
  memory := ⟨Memory.wf_storeAll id h.memory.1, h.memory.2⟩
  counters := h.counters
  invalid := (h.operation.1 ph).1
  noError := (h.operation.1 ph).2.1
  noLength := (h.operation.1 ph).2.2
  permutation := by
    have identity : ({ s.identityFill with PH := .ksa } : State).readP = id := funext (State.readP_storeAll s id)
    rw [State.IsPermutation, identity]
    exact Function.bijective_id
  written := State.fullyWritten_storeAll s id

theorem State.InPass.endPass {s : State} (h : s.InPass) (ph : s.PH = .ksa) : s.endPass.Inv := by
  cases next : s.nextPass with
  | none =>
    rw [State.endPass_none next]
    exact h.complete
  | some p =>
    rw [State.endPass_some next]
    exact h.enterPass ph (State.nextPass_ne next)

/-- One position of a running operation keeps the state sound, in every phase. -/
theorem State.Inv.seqStep {s : State} (h : s.Inv) : s.seqStep.Inv := by
  cases ph : s.PH with
  | idle => rwa [State.seqStep, ph]
  | stream => rwa [State.seqStep, ph]
  | fill =>
    rw [State.seqStep_fill ph]
    exact (h.inPass_of_fill ph).enterPass rfl (by decide)
  | ksa =>
    have inPass := State.InPass.of_ksa h ph
    by_cases m : s.M = 768#10
    · rw [State.seqStep_end ph m]
      exact inPass.endPass ph
    · rw [State.seqStep_round ph m]
      exact (inPass.ksaRound m _ _).inv ph
  | wiping =>
    rw [State.seqStep_wiping ph]
    exact State.inv_zeroize h.memory h.counters (h.operation.2.2 ph)

theorem StepCase.inv {s t : State} (c : StepCase s t) (h : s.Inv) : t.Inv := by
  cases c with
  | reset => exact (h.withHost _).hostReset
  | running => exact h.seqStep
  | waiting => exact h.deliver
  | blocked => exact h.deliver
  | take => exact (h.withHost _).deliver
  | mat => exact (h.withHost _).setMat _ _
  | @data d rest streaming => exact State.Inv.ksStep (s := s.withHost rest) (h.withHost rest) streaming d
  | init => exact State.inv_initCommand (h.withHost _).memory _ _ _
  | init3 => exact State.inv_initCommand (h.withHost _).memory _ _ _
  | xform => exact (h.withHost _).openCall
  | wipe => exact State.inv_zeroize h.memory h.counters rfl
  | refused => exact (h.withHost _).refuseWord

/-- Settles O55: each case of the step's inversion keeps the invariant. -/
theorem everyStepKeepsTheStateSound : Obligations.EveryStepKeepsTheStateSound :=
  fun _ _ h hstep => (step_inv hstep).inv h

/-- Settles O54: after reset nothing is valid and no operation runs. -/
theorem resetStateIsSound : Obligations.ResetStateIsSound :=
  State.inv_of_spent ⟨Memory.wf_nil _, Memory.wf_nil _⟩ ⟨Nat.zero_le _, by decide⟩ rfl rfl fun _ => rfl

/-- Settles O7, register by register; no entry of `P` is listed, so each reads as its free byte. -/
theorem resetStateHasTheSpecifiedValues : Obligations.ResetStateHasTheSpecifiedValues :=
  ⟨rfl, rfl, rfl, rfl, rfl, rfl, rfl, rfl, rfl, rfl, rfl, rfl, rfl, rfl, fun _ => rfl⟩

/-! ### The sequencer's run is the whole command -/

/-- A pass that is entered with an admitted length runs its 768 rounds and ends (R112, R118). -/
theorem State.seqRun_enterPass {t : State} {p : BitVec 2} (ph : t.PH = .ksa) (ok : lengthOk (t.passLength p) = true) :
    State.seqRun 769 (t.enterPass p) =
      (({ t with PASS := p } : State).ksaRun (passBank p) (t.passLength p)).endPass := by
  rw [State.enterPass_ok ok]
  exact State.seqRun_passEnd (s := { t with PASS := p, M := 0#10, J := 0#6 }) ph rfl rfl

/-- With no IV pass to follow, the end of a pass leads to the second key pass of `INIT3` or to completion (R118, R119). -/
theorem State.seqRun_endPass {t : State} (ph : t.PH = .ksa) (noIv : t.PASS = 0#2 → t.IL = 0x00#8) (notLast : t.PASS ≠ 2#2)
    (ok : lengthOk t.KL = true) :
    State.seqRun 769 t.endPass = (if t.X then t.keyAgain t.KL else t).completeInit := by
  have next : t.nextPass = if t.X then some 2#2 else none := by
    have skip : ¬ (t.PASS = 0#2 ∧ t.IL ≠ 0x00#8) := fun e => e.2 (noIv e.1)
    simp [State.nextPass, skip, notLast]
  cases x : t.X with
  | false =>
    rw [State.endPass_none (by simp [next, x]), State.seqRun_idle rfl]
    rfl
  | true =>
    have last : (t.keyAgain t.KL).nextPass = none := by simp [State.nextPass]
    rw [State.endPass_some (p := 2#2) (by simp [next, x]), State.seqRun_enterPass (p := 2#2) ph ok]
    exact State.endPass_none last

/-- From the end of the key pass of an initialization: the rest of the whole command (R116, R117). -/
theorem State.seqRun_keyed (s : State) (x : Bool) {klen : Byte} (ivlen : Byte) (ok : lengthOk klen = true) :
    State.seqRun (769 + 769) (s.keyed x klen ivlen).endPass = s.initCommand x klen ivlen := by
  rw [State.seqRun_add, State.initCommand_eq, if_neg (by simp [ok])]
  by_cases noIv : ivlen = 0x00#8
  · have run := State.seqRun_endPass (t := s.keyed x klen ivlen) (by simp) (by simp [noIv]) (by simp) (by simpa using ok)
    rw [run, if_pos noIv, State.seqRun_idle rfl, State.keyed_X, State.keyed_KL]
  · have next : (s.keyed x klen ivlen).nextPass = some 1#2 := by simp [State.nextPass, noIv]
    have length : (s.keyed x klen ivlen).passLength 1#2 = ivlen := by rw [State.passLength_iv, State.keyed_IL]
    rw [State.endPass_some next, if_neg noIv]
    cases iv : lengthOk ivlen with
    | false =>
      rw [State.enterPass_bad (by rw [length, iv]), length, State.seqRun_idle rfl, State.seqRun_idle rfl, if_pos rfl]
    | true =>
      have run := State.seqRun_endPass (t := (s.keyed x klen ivlen).ivPass ivlen) (by simp) (by simp) (by simp)
        (by simpa using ok)
      simp only [State.ivPass_X, State.ivPass_KL, State.keyed_X, State.keyed_KL] at run
      rw [State.seqRun_enterPass (by simp) (by rw [length, iv]), length, if_neg (by decide)]
      exact run

theorem State.seqRun_acceptInit (s : State) (x : Bool) (klen ivlen : Byte) :
    State.seqRun (1 + (769 + (769 + 769))) (s.acceptInit x klen ivlen) = s.initCommand x klen ivlen := by
  have fill : State.seqRun 1 (s.acceptInit x klen ivlen) = (s.filled x klen ivlen).enterPass 0#2 := by
    rw [State.seqRun_busy (State.busy_of_fill rfl), State.seqStep_fill rfl]
    rfl
  rw [State.seqRun_add, fill]
  cases key : lengthOk klen with
  | false =>
    rw [State.enterPass_bad (s := s.filled x klen ivlen) (p := 0#2) key, State.seqRun_idle rfl, State.initCommand_eq, if_pos key]
    rfl
  | true =>
    rw [State.seqRun_add, State.seqRun_enterPass (t := s.filled x klen ivlen) (p := 0#2) rfl key]
    exact State.seqRun_keyed s x ivlen key

theorem seqBound_eq : seqBound = 1 + (769 + (769 + 769)) := by rw [seqBound, rounds_eq]

/-- Settles O35: the fill, then pass by pass, each ended by the next one, by a raise or by completion; a wipe is one
position. -/
theorem sequencerRunIsTheWholeCommand : Obligations.SequencerRunIsTheWholeCommand := by
  refine ⟨fun s x klen ivlen => ?_, fun s => ?_⟩
  · rw [seqBound_eq]
    exact State.seqRun_acceptInit s x klen ivlen
  · have wipe : State.seqRun 1 s.acceptWipe = s.acceptWipe.zeroize := by
      rw [State.seqRun_busy (State.busy_of_wiping rfl), State.seqStep_wiping rfl]
      rfl
    rw [seqBound_eq, State.seqRun_add, wipe]
    exact State.seqRun_idle rfl _

/-! ### The phase between commands, and the status word -/

theorem State.busy_iff (s : State) : s.busy = true ↔ s.PH = .fill ∨ s.PH = .ksa ∨ s.PH = .wiping := by
  cases ph : s.PH <;> simp [State.busy, ph]

theorem State.initCommand_PH (s : State) (x : Bool) (klen ivlen : Byte) : (s.initCommand x klen ivlen).PH = .idle :=
  (State.initCommand_frame s x klen ivlen).2.2.2.2.1

theorem State.initCommand_ILL (s : State) (x : Bool) (klen ivlen : Byte) : (s.initCommand x klen ivlen).ILL = false :=
  (State.initCommand_frame s x klen ivlen).2.2.2.2.2.1

theorem State.busy_openCall (s : State) : s.openCall.busy = false :=
  (State.openCall_PH s).elim State.busy_of_idle State.busy_of_stream

theorem State.busy_initCommand (s : State) (x : Bool) (klen ivlen : Byte) : (s.initCommand x klen ivlen).busy = false :=
  State.busy_of_idle (State.initCommand_PH s x klen ivlen)

/-- A whole command or beat leaves no operation running. -/
theorem exec_busy {s t : State} {i : Instr} (idle : s.busy = false) (h : exec i s = .next t) : t.busy = false := by
  cases i with
  | init klen ivlen =>
    cases h
    split_ifs
    · exact s.busy_initCommand _ _ _
    · exact idle
  | init3 klen ivlen =>
    cases h
    split_ifs
    · exact s.busy_initCommand _ _ _
    · exact idle
  | xform =>
    cases h
    split_ifs
    · exact s.busy_openCall
    · exact idle
  | wipe =>
    cases h
    split_ifs
    · rfl
    · exact idle
  | data d =>
    cases h
    split_ifs <;> exact idle

/-- The status word, bit by bit (R32). -/
theorem State.getLsbD_status (s : State) (i : Nat) :
    s.status.getLsbD i =
      if i = 0 then s.busy else if i = 1 then s.V else if i = 2 then s.ERR else if i = 3 then s.ILL
      else if i = 4 then s.strm else if i < 8 then false else s.ERRLEN.getLsbD (i - 8) := by
  rw [State.status]
  simp only [BitVec.getLsbD_append, BitVec.getLsbD_ofBool, BitVec.getLsbD_zero]
  match i with
  | 0 | 1 | 2 | 3 | 4 | 5 | 6 | 7 => simp
  | k + 8 => simp

/-- Settles O10: the bits are `State.getLsbD_status`; a whole command leaves no operation running (`exec_busy`). -/
theorem statusWordBitByBit : Obligations.StatusWordBitByBit := by
  intro s
  have heldBack (busy : s.busy = true) : s.cmdReady = false ∧ s.dinReady = false := by
    refine ⟨by simp [State.cmdReady, busy], Bool.eq_false_iff.mpr fun ready => ?_⟩
    rw [State.busy_of_stream (s.dinReady_iff.mp ready)] at busy
    cases busy
  refine ⟨s.busy_iff, s.getLsbD_status 0, s.getLsbD_status 1, s.getLsbD_status 2, s.getLsbD_status 3, ?_, ?_, ?_, heldBack,
    fun idle i t => exec_busy idle⟩
  · rw [State.getLsbD_status]
    exact s.dinReady_iff
  · refine BitVec.eq_of_getLsbD_eq fun i hi => ?_
    rw [BitVec.getLsbD_extractLsb', State.getLsbD_status]
    simp (disch := omega) only [if_neg, if_pos, Bool.and_false, BitVec.getLsbD_zero]
  · refine BitVec.eq_of_getLsbD_eq fun i hi => ?_
    rw [BitVec.getLsbD_extractLsb', State.getLsbD_status]
    simp (disch := omega) only [if_neg, hi, decide_true, Bool.true_and, Nat.add_sub_cancel_left]

/-- A step from a state with no operation running ends in one: an operation is never left part way (R29, log 3). -/
theorem StepCase.busy {s t : State} (c : StepCase s t) (idle : s.busy = false) : t.busy = false := by
  cases c with
  | reset => rfl
  | running busy => rw [idle] at busy; cases busy
  | waiting => rwa [State.busy_congr (State.deliver_PH s)]
  | blocked => rwa [State.busy_congr (State.deliver_PH s)]
  | take => rwa [State.busy_congr (State.deliver_PH _)]
  | mat => exact idle
  | data => exact idle
  | init => exact State.busy_initCommand _ _ _ _
  | init3 => exact State.busy_initCommand _ _ _ _
  | xform => exact State.busy_openCall _
  | wipe => rfl
  | refused => rfl

/-- Settles O16: no step from a state with no operation running starts one. -/
theorem wholeCommandsSeeIdleAndStream : Obligations.WholeCommandsSeeIdleAndStream :=
  fun _ _ h idle => State.idle_or_stream ((step_inv h).busy idle)

/-! ### Who writes `V` -/

theorem admittedKey_iff (klen : Byte) : AdmittedKey klen ↔ lengthOk klen = true := (lengthOk_iff klen).symm

theorem admittedIv_iff (ivlen : Byte) : AdmittedIv ivlen ↔ ivlen = 0x00#8 ∨ lengthOk ivlen = true := by
  rw [AdmittedIv, lengthOk_iff]

theorem State.initCommand_V_iff (s : State) (x : Bool) (klen ivlen : Byte) :
    (s.initCommand x klen ivlen).V = true ↔ AdmittedKey klen ∧ AdmittedIv ivlen := by
  simp [State.initCommand_V, admittedKey_iff, admittedIv_iff]

/-- The only position that writes `V` is the end of the last pass (R24, R119). -/
theorem State.seqStep_V (s : State) :
    s.seqStep.V = (s.V || decide (s.PH = .ksa ∧ s.M = 768#10 ∧ s.nextPass = none)) := by
  cases ph : s.PH with
  | idle => simp [State.seqStep, ph]
  | stream => simp [State.seqStep, ph]
  | fill => simp [State.seqStep_fill ph]
  | wiping => simp [State.seqStep_wiping ph]
  | ksa =>
    by_cases m : s.M = 768#10
    · cases next : s.nextPass with
      | none => simp [State.seqStep_end ph m, State.endPass_none next, m]
      | some p => simp [State.seqStep_end ph m, State.endPass_some next]
    · simp [State.seqStep_round ph m, m]

@[simp] theorem State.openCall_V (s : State) : s.openCall.V = s.V := by rw [State.openCall_frame]

@[simp] theorem State.refuseWord_V (s : State) : s.refuseWord.V = s.V := (rfl)

/-- Settles O49: of the step's cases only a position of the sequencer and a whole initialization can end with `V` set, and
only `rst`, `WIPE` and a whole initialization with `V` clear. -/
theorem validIsSetOnlyByInitialization : Obligations.ValidIsSetOnlyByInitialization := by
  refine ⟨fun s t h before after => ?_, fun s t h before after => ?_, fun _ _ _ _ => rfl, fun _ => ⟨rfl, rfl⟩⟩
  · cases step_inv h with
    | running =>
      rw [State.seqStep_V, before, Bool.false_or, decide_eq_true_iff] at after
      exact .inl after
    | init offer ready dec =>
      exact .inr ⟨_, _, _, _, offer, ready, .inl dec, (State.initCommand_V_iff _ _ _ _).mp after⟩
    | init3 offer ready dec =>
      exact .inr ⟨_, _, _, _, offer, ready, .inr dec, (State.initCommand_V_iff _ _ _ _).mp after⟩
    | _ => simp [before] at after
  · cases step_inv h with
    | reset offer => exact .inl ⟨_, offer⟩
    | init offer ready dec => exact .inr ⟨_, _, offer, ready, .inr ⟨_, _, .inl dec⟩⟩
    | init3 offer ready dec => exact .inr ⟨_, _, offer, ready, .inr ⟨_, _, .inr dec⟩⟩
    | wipe offer ready dec => exact .inr ⟨_, _, offer, ready, .inl dec⟩
    | running => simp [State.seqStep_V, before] at after
    | _ => simp [before] at after

/-! ### Who writes `ILL` -/

@[simp] theorem State.refuseWord_ILL (s : State) : s.refuseWord.ILL = true := (rfl)

/-- `XFORM` is refused exactly while `V = 0` (R140, R173). -/
theorem State.openCall_ILL (s : State) : s.openCall.ILL = !s.V := by
  cases v : s.V with
  | true => rw [State.openCall_valid v]; rfl
  | false => rw [State.openCall_invalid v]; rfl

/-- Settles O50: the accepted word by what it decodes to; `rst`; and the cases of a step that are neither. -/
theorem illDescribesTheLastCommandWord : Obligations.IllDescribesTheLastCommandWord := by
  refine ⟨fun s w rest offer ready => ?_, fun _ _ offer => ⟨_, (StepCase.reset offer).step, rfl⟩,
    fun s t h noReset noCommand => ?_⟩
  · cases dec : decodeCommand w with
    | error r => exact ⟨_, (StepCase.refused offer ready dec).step, by simp⟩
    | ok i =>
      cases i with
      | init klen ivlen => exact ⟨_, (StepCase.init offer ready dec).step, by simp [State.initCommand_ILL]⟩
      | init3 klen ivlen => exact ⟨_, (StepCase.init3 offer ready dec).step, by simp [State.initCommand_ILL]⟩
      | xform => exact ⟨_, (StepCase.xform offer ready dec).step, by simp [State.openCall_ILL]⟩
      | wipe => exact ⟨_, (StepCase.wipe offer ready dec).step, by simp⟩
      | data d => exact absurd dec decodeCommand_ne_data
  · have notAccepted {w rest} (offer : s.nextOffer = some (.cmd w, rest)) : s.cmdReady ≠ true := by
      simp [noCommand w rest offer]
    cases step_inv h with
    | reset offer => exact absurd offer (noReset _)
    | running =>
      obtain ⟨-, -, -, -, ill, -⟩ := s.seqStep_frame
      exact ill
    | waiting => exact s.deliver_ILL
    | blocked => exact s.deliver_ILL
    | take => exact State.deliver_ILL _
    | mat => rfl
    | data => rfl
    | init offer ready => exact absurd ready (notAccepted offer)
    | init3 offer ready => exact absurd ready (notAccepted offer)
    | xform offer ready => exact absurd ready (notAccepted offer)
    | wipe offer ready => exact absurd ready (notAccepted offer)
    | refused offer ready => exact absurd ready (notAccepted offer)

/-! ### Who writes `ERR` and `ERRLEN` -/

theorem State.initCommand_ERR_iff (s : State) (x : Bool) (klen ivlen : Byte) :
    (s.initCommand x klen ivlen).ERR = true ↔ ¬ (AdmittedKey klen ∧ AdmittedIv ivlen) := by
  rw [State.initCommand_ERR, ← State.initCommand_V_iff s x klen ivlen, Bool.not_eq_true', Bool.not_eq_true]

theorem State.initCommand_ERRLEN_badKey (s : State) (x : Bool) {klen : Byte} (ivlen : Byte) (key : ¬ AdmittedKey klen) :
    (s.initCommand x klen ivlen).ERRLEN = klen := by
  rw [admittedKey_iff, Bool.not_eq_true] at key
  rw [State.initCommand_ERRLEN, if_pos key]

theorem State.initCommand_ERRLEN_badIv (s : State) (x : Bool) {klen ivlen : Byte} (key : AdmittedKey klen)
    (iv : ¬ AdmittedIv ivlen) : (s.initCommand x klen ivlen).ERRLEN = ivlen := by
  rw [admittedKey_iff] at key
  rw [admittedIv_iff, not_or, Bool.not_eq_true] at iv
  obtain ⟨notZero, bad⟩ := iv
  rw [State.initCommand_ERRLEN, if_neg (by simp [key]), if_neg notZero, if_pos bad]

theorem State.initCommand_ERRLEN_admitted (s : State) (x : Bool) {klen ivlen : Byte} (key : AdmittedKey klen)
    (iv : AdmittedIv ivlen) : (s.initCommand x klen ivlen).ERRLEN = 0x00#8 := by
  rw [admittedKey_iff] at key
  rw [State.initCommand_ERRLEN, if_neg (by simp [key])]
  rcases (admittedIv_iff ivlen).mp iv with zero | ok
  · rw [if_pos zero]
  · simp [ok]

/-- `XFORM` leaves the error flag and its length, whether it is refused or not (R25, R27). -/
theorem State.openCall_error (s : State) : s.openCall.ERR = s.ERR ∧ s.openCall.ERRLEN = s.ERRLEN := by
  rw [State.openCall_frame]
  exact ⟨rfl, rfl⟩

/-- Settles O51: the clauses of `ERR` and `ERRLEN` for both initializations, then the beats that leave both. -/
theorem errReportsTheRejectedLength : Obligations.ErrReportsTheRejectedLength := by
  refine ⟨fun s klen ivlen ready => ?_, fun _ _ _ _ => ⟨rfl, rfl⟩, fun _ => ⟨rfl, rfl, rfl, rfl⟩, fun s t h => ?_⟩
  · exact ⟨_, _, exec_init ready klen ivlen, exec_init3 ready klen ivlen,
      s.initCommand_ERR_iff _ _ _, s.initCommand_ERR_iff _ _ _,
      fun key => ⟨s.initCommand_ERRLEN_badKey _ _ key, s.initCommand_ERRLEN_badKey _ _ key⟩,
      fun key iv => ⟨s.initCommand_ERRLEN_badIv _ key iv, s.initCommand_ERRLEN_badIv _ key iv⟩,
      fun key iv => ⟨s.initCommand_ERRLEN_admitted _ key iv, s.initCommand_ERRLEN_admitted _ key iv⟩⟩
  · rcases h with ⟨d, beat⟩ | call | rfl
    · cases beat
      split_ifs <;> exact ⟨rfl, rfl⟩
    · cases call
      split_ifs
      · exact s.openCall_error
      · exact ⟨rfl, rfl⟩
    · exact ⟨rfl, rfl⟩

end Sys2Proof.Machine

/-! PROOFS. The statements of 20_memory.md: the permutation RAM (R53, R61), who writes the material and what of it is read
(R54, R55), and the order of the host's offers (R63). -/

namespace Sys2Proof.Machine

/-! ### The permutation RAM -/

/-- Settles O20: reading after a write, at the written address and at every other one. -/
theorem writeStoresOneEntry : Obligations.WriteStoresOneEntry :=
  State.readP_writeP

/-- A swap of an entry with itself changes no entry (R61). -/
theorem State.readP_swapP_self (s : State) (x : Byte) : (s.swapP x x).readP = s.readP := by
  rw [State.readP_swapP_eq_comp, Equiv.swap_self, Equiv.coe_refl, Function.comp_id]

/-- Settles O21: a swap reads as the old entries behind the transposition of the two addresses. -/
theorem swapExchangesTwoEntries : Obligations.SwapExchangesTwoEntries := by
  intro s x y
  have read (a : Byte) : (s.swapP x y).readP a = s.readP (Equiv.swap x y a) :=
    congrFun (State.readP_swapP_eq_comp s x y) a
  refine ⟨?_, ?_, fun a ax ay => ?_, ?_, fun perm => State.isPermutation_swapP perm x y⟩
  · rw [read, Equiv.swap_apply_left]
  · rw [read, Equiv.swap_apply_right]
  · rw [read, Equiv.swap_apply_of_ne_of_ne ax ay]
  · rintro rfl
    exact s.readP_swapP_self x

/-! ### The order of the host's offers -/

/-- The first offer stands behind a run of data bytes that keep their place, and none is passed over once `din_ready = 1`
(R63, R141). -/
theorem firstOffer_split {ready : Bool} {offers rest : List HostEvent} {e : HostEvent}
    (h : firstOffer ready offers = some (e, rest)) :
    ∃ (waiting : List Byte) (later : List HostEvent), offers = waiting.map HostEvent.data ++ e :: later ∧
      rest = waiting.map HostEvent.data ++ later ∧ (waiting ≠ [] → ready = false) := by
  induction offers generalizing rest with
  | nil => cases h
  | cons first offers ih =>
    cases first with
    | data d =>
      cases ready with
      | true =>
        cases h
        exact ⟨[], offers, rfl, rfl, fun nonempty => absurd rfl nonempty⟩
      | false =>
        cases found : firstOffer false offers with
        | none => simp [firstOffer, found] at h
        | some p =>
          obtain ⟨e', others⟩ := p
          simp only [firstOffer, found, Bool.false_eq_true, if_false, Option.some.injEq, Prod.mk.injEq] at h
          obtain ⟨rfl, rfl⟩ := h
          obtain ⟨waiting, later, rfl, rfl, -⟩ := ih found
          exact ⟨d :: waiting, later, rfl, rfl, fun _ => rfl⟩
    | cmd | take | mat | rst =>
      cases h
      exact ⟨[], offers, rfl, rfl, fun nonempty => absurd rfl nonempty⟩

/-- Settles O14: the run of waiting data bytes is `firstOffer_split`'s; a data byte is the next offer in a call only. -/
theorem offersAreTakenInOrder : Obligations.OffersAreTakenInOrder := by
  intro s e rest offer
  obtain ⟨waiting, later, hhost, hrest, passed⟩ := firstOffer_split offer
  refine ⟨waiting, later, hhost, hrest, fun nonempty streaming => ?_, ?_⟩
  · exact absurd (s.dinReady_iff.mpr streaming) (Bool.eq_false_iff.mp (passed nonempty))
  · rintro d rfl
    exact State.nextOffer_data offer

/-! ### Who writes the material -/

theorem State.seqStep_MAT (s : State) : s.seqStep.MAT = s.MAT := by
  obtain ⟨-, -, -, mat, -⟩ := s.seqStep_frame
  exact mat

theorem State.initCommand_MAT (s : State) (x : Bool) (klen ivlen : Byte) : (s.initCommand x klen ivlen).MAT = s.MAT := by
  obtain ⟨-, -, -, ⟨mat, -⟩, -⟩ := s.initCommand_frame x klen ivlen
  exact mat

theorem State.openCall_MAT (s : State) : s.openCall.MAT = s.MAT := by rw [State.openCall_frame]

/-- Of the cases of a step only the host's write changes the material (R54, R55). -/
theorem StepCase.mat_eq_or_hostWrite {s t : State} (c : StepCase s t) :
    t.MAT = s.MAT ∨ ∃ a v rest, s.nextOffer = some (.mat a v, rest) ∧ s.busy = false := by
  cases c with
  | mat idle offer => exact .inr ⟨_, _, _, offer, idle⟩
  | reset => exact .inl rfl
  | running => exact .inl s.seqStep_MAT
  | waiting => exact .inl s.deliver_MAT
  | blocked => exact .inl s.deliver_MAT
  | take => exact .inl (State.deliver_MAT _)
  | data => exact .inl rfl
  | init => exact .inl (State.initCommand_MAT _ _ _ _)
  | init3 => exact .inl (State.initCommand_MAT _ _ _ _)
  | xform => exact .inl (State.openCall_MAT _)
  | wipe => exact .inl rfl
  | refused => exact .inl rfl

/-- Settles O19: every other case of a step leaves the material; the host's write is `setMat`, which sets one byte. -/
theorem onlyTheHostWritesMaterial : Obligations.OnlyTheHostWritesMaterial := by
  refine ⟨fun s t h => (step_inv h).mat_eq_or_hostWrite, fun s bank idx v rest offer idle => ?_⟩
  exact ⟨_, (StepCase.mat idle offer).step,
    fun bank' idx' => State.matRead_setMat (s.withHost rest) bank bank' idx idx' v, rfl⟩

/-! ### What of the material an initialization reads -/

/-- Bank `bank` reads the same with the material `banks` in place of the engine's own, below the length `L`. -/
def State.AgreesBelow (s : State) (banks : Memory) (bank : BitVec 1) (L : Byte) : Prop :=
  ∀ idx : BitVec 6, idx.toNat < L.toNat → ({ s with MAT := banks } : State).matRead bank idx = s.matRead bank idx

theorem State.AgreesBelow.congr {s t : State} {banks : Memory} {bank : BitVec 1} {L : Byte}
    (agree : s.AgreesBelow banks bank L) (mat : t.MAT = s.MAT) : t.AgreesBelow banks bank L := by
  intro idx below
  rw [State.matRead_congr (s := t) mat, ← agree idx below]
  rfl

section
variable {s : State} {banks : Memory} {klen ivlen : Byte}

theorem State.keyed_withMat (x : Bool) (ok : lengthOk klen = true) (key : s.AgreesBelow banks 0#1 klen) :
    ({ s with MAT := banks } : State).keyed x klen ivlen = { s.keyed x klen ivlen with MAT := banks } :=
  State.ksaRun_withMat 0#1 ok banks (s.filled x klen ivlen) key

theorem State.ivPass_withMat (ok : lengthOk ivlen = true) (iv : s.AgreesBelow banks 1#1 ivlen) :
    ({ s with MAT := banks } : State).ivPass ivlen = { s.ivPass ivlen with MAT := banks } :=
  State.ksaRun_withMat 1#1 ok banks { s with PASS := 1#2 } iv

theorem State.keyAgain_withMat (ok : lengthOk klen = true) (key : s.AgreesBelow banks 0#1 klen) :
    ({ s with MAT := banks } : State).keyAgain klen = { s.keyAgain klen with MAT := banks } :=
  State.ksaRun_withMat 0#1 ok banks { s with PASS := 2#2 } key

/-- The end of an initialization from the state after its last bank: the second key pass of `INIT3`, then completion. -/
theorem State.finish_withMat (x : Bool) (ok : lengthOk klen = true) (key : s.AgreesBelow banks 0#1 klen) :
    (if x then ({ s with MAT := banks } : State).keyAgain klen else { s with MAT := banks }).completeInit =
      { (if x then s.keyAgain klen else s).completeInit with MAT := banks } := by
  cases x with
  | false => rfl
  | true =>
    rw [if_pos rfl, if_pos rfl, State.keyAgain_withMat ok key]
    rfl

/-- A whole initialization reads bank 0 below the key length and bank 1 below the IV length only (R55, R110). -/
theorem State.initCommand_withMat (x : Bool) (key : s.AgreesBelow banks 0#1 klen) (iv : s.AgreesBelow banks 1#1 ivlen) :
    ({ s with MAT := banks } : State).initCommand x klen ivlen = { s.initCommand x klen ivlen with MAT := banks } := by
  rw [State.initCommand_eq, State.initCommand_eq]
  cases keyOk : lengthOk klen with
  | false => rfl
  | true =>
    have keyKeyed : (s.keyed x klen ivlen).AgreesBelow banks 0#1 klen := key.congr (State.keyed_MAT _ _ _ _)
    have ivKeyed : (s.keyed x klen ivlen).AgreesBelow banks 1#1 ivlen := iv.congr (State.keyed_MAT _ _ _ _)
    simp only [Bool.true_eq_false, if_false]
    rw [State.keyed_withMat x keyOk key]
    by_cases noIv : ivlen = 0x00#8
    · rw [if_pos noIv, if_pos noIv]
      exact State.finish_withMat x keyOk keyKeyed
    · rw [if_neg noIv, if_neg noIv]
      cases ivOk : lengthOk ivlen with
      | false => rfl
      | true =>
        simp only [Bool.true_eq_false, if_false]
        rw [State.ivPass_withMat ivOk ivKeyed]
        exact State.finish_withMat x keyOk (keyKeyed.congr (State.ivPass_MAT _ _))

end

/-- Settles O34: both initializations are the whole command, which reads each bank below its length only. -/
theorem materialBeyondTheLengthIsNotRead : Obligations.MaterialBeyondTheLengthIsNotRead := by
  intro s klen ivlen banks ready key iv
  have readyToo : ({ s with MAT := banks } : State).cmdReady = true := ready
  refine ⟨⟨_, exec_init ready klen ivlen, ?_⟩, _, exec_init3 ready klen ivlen, ?_⟩
  · rw [exec_init readyToo, State.initCommand_withMat false key iv]
  · rw [exec_init3 readyToo, State.initCommand_withMat true key iv]

end Sys2Proof.Machine

/-! PROOFS. The statements of 30_encoding.md: words and instructions (R82 to R87), the assembler (R89, R90), and how a step
takes a command word, a data beat and the host's take (R81, R84). -/

namespace Sys2Proof

/-! ### Decoding and encoding are inverse -/

/-- Every instruction's beat decodes to it, by the fields its word is made of (R82 to R86). -/
theorem decode_encode (i : Instr) : decode (encode i) = .ok i := by
  cases i with
  | data d => rfl
  | init | init3 | xform | wipe => simp [encode, decode, decodeCommand_eq, fieldsOf_wordOf]

theorem decodeTableWord_command (w : CommandWord) : decodeTableWord 32 w.toNat = (decode (.command w)).toOption := by
  rw [decodeTableWord, if_pos ⟨rfl, w.isLt⟩, BitVec.ofNat_toNat, BitVec.setWidth_eq]

theorem decodeTableWord_data (d : Byte) : decodeTableWord 8 d.toNat = (decode (.data d)).toOption := by
  rw [decodeTableWord, if_neg (by simp), if_pos ⟨rfl, d.isLt⟩, BitVec.ofNat_toNat, BitVec.setWidth_eq]

/-- Settles O2: the beat by `decode_encode`; the table's numbering reads the same beat. -/
theorem decodeInvertsEncode : Obligations.DecodeInvertsEncode := by
  refine fun i _ => ⟨decode_encode i, fun w command => ?_, fun d data => ?_⟩
  · rw [decodeTableWord_command, ← command, decode_encode]
    rfl
  · rw [decodeTableWord_data, ← data, decode_encode]
    rfl

theorem wordOf_of_fieldsOf {w : CommandWord} {f : CommandFields} (h : fieldsOf w = f) : wordOf f = w := by
  rw [← h, wordOf_fieldsOf]

/-- A word that decodes has all its fields fixed by what it decodes to (R86). -/
theorem encode_of_decodeCommand {w : CommandWord} {i : Instr} (h : decodeCommand w = .ok i) : encode i = .command w := by
  have word {op : Byte} (row : (fieldsOf w).op = op ∧ (fieldsOf w).rsv = 0x00#8) :
      wordOf { op := op, rsv := 0x00#8, b := (fieldsOf w).b, a := (fieldsOf w).a } = w := by
    obtain ⟨rfl, rsv⟩ := row
    rw [← rsv]
    exact wordOf_fieldsOf w
  rw [decodeCommand_eq] at h
  split_ifs at h with init init3 xform wipe <;> cases h
  · exact congrArg Beat.command (word init)
  · exact congrArg Beat.command (word init3)
  · exact congrArg Beat.command (wordOf_of_fieldsOf xform)
  · exact congrArg Beat.command (wordOf_of_fieldsOf wipe)

/-- Settles O3: a command word by its fields; a data beat is its own byte. -/
theorem encodeInvertsDecode : Obligations.EncodeInvertsDecode := by
  intro b i h
  cases b with
  | command w => exact encode_of_decodeCommand h
  | data d =>
    cases h
    rfl

/-- Settles O1: nine fixed words, each decoded by evaluation. -/
theorem wordsOfTheSpecDecode : Obligations.WordsOfTheSpecDecode := by
  unfold Obligations.WordsOfTheSpecDecode
  decide

/-! ### The reserved words -/

theorem decodeCommand_error_iff (w : CommandWord) :
    (∃ r, decodeCommand w = .error r) ↔ (fieldsOf w).wellFormed = false := by
  rw [← Bool.not_eq_true, ← decodeCommand_isOk_iff]
  cases decodeCommand w <;> simp

/-- The opcodes outside the map are 0x00 and 0x05 to 0xFF (R87 item 1). -/
theorem CommandFields.opKnown_eq_false_iff (f : CommandFields) :
    f.opKnown = false ↔ f.op = 0x00#8 ∨ 0x05#8 ≤ f.op := by
  simp only [CommandFields.opKnown, Bool.or_eq_false_iff, beq_eq_false_iff_ne]
  bv_omega

/-- Fields that are not well formed belong to one of the three classes of R87. -/
theorem CommandFields.wellFormed_eq_false_iff (f : CommandFields) :
    f.wellFormed = false ↔ (f.op = 0x00#8 ∨ 0x05#8 ≤ f.op) ∨ ((f.op = 0x01#8 ∨ f.op = 0x02#8) ∧ f.rsv ≠ 0x00#8) ∨
      ((f.op = 0x03#8 ∨ f.op = 0x04#8) ∧ ¬ (f.rsv = 0x00#8 ∧ f.b = 0x00#8 ∧ f.a = 0x00#8)) := by
  rw [← f.opKnown_eq_false_iff]
  obtain ⟨op, rsv, b, a⟩ := f
  cases known : CommandFields.opKnown ⟨op, rsv, b, a⟩ with
  | false => simp [CommandFields.wellFormed, known]
  | true =>
    simp only [CommandFields.opKnown, Bool.or_eq_true, beq_iff_eq, or_assoc] at known
    rcases known with rfl | rfl | rfl | rfl <;>
      simp [CommandFields.wellFormed, CommandFields.opKnown, CommandFields.rsvZero, CommandFields.operandsFit,
        and_comm (a := b = 0x00#8)]

end Sys2Proof

namespace Sys2Proof.Machine

/-- Settles O4: the reserved words are those whose fields are not well formed; the step refuses such a word. -/
theorem reservedWordsAreRefused : Obligations.ReservedWordsAreRefused := by
  refine ⟨fun w => ?_, fun s w rest offer ready reserved => ?_⟩
  · rw [decodeCommand_error_iff, CommandFields.wellFormed_eq_false_iff, ← low24_eq_zero_iff]
    rfl
  · obtain ⟨r, dec⟩ := reserved
    exact ⟨_, (StepCase.refused offer ready dec).step, rfl⟩

/-! ### The assembler -/

/-- With `RSV` zero a word is its three other fields or-ed together, as in the formulas of R89. -/
theorem wordOf_rsvZero (op b a : Byte) :
    wordOf { op := op, rsv := 0x00#8, b := b, a := a } =
      op.zeroExtend 32 <<< 24 ||| b.zeroExtend 32 <<< 8 ||| a.zeroExtend 32 := by
  simp [wordOf]

/-- A program of one item is that item's offers, or its report. -/
theorem assemble_singleton (item : AsmItem) : assemble [item] = item.offers := by
  rw [assemble]
  cases item.offers <;> simp [assemble]

/-- `XBYTES` assembles to its call followed by its data beats (R90). -/
theorem assemble_xform_data (bytes : List Byte) : assemble [.xform, .data bytes] = (AsmItem.xbytes bytes).offers := by
  rw [assemble, assemble_singleton]
  rfl

/-- Settles O5: the formulas by the fields of the word; of the expansions only that of `XBYTES` has more than one item. -/
theorem assemblerFollowsItsExpansions : Obligations.AssemblerFollowsItsExpansions := by
  refine ⟨fun klen ivlen => congrArg Beat.command (wordOf_rsvZero 0x01#8 ivlen klen),
    fun klen ivlen => congrArg Beat.command (wordOf_rsvZero 0x02#8 ivlen klen),
    fun _ => ⟨rfl, rfl⟩, rfl, rfl, fun _ => rfl, fun item => ?_⟩
  cases item with
  | xbytes bytes => exact (assemble_singleton _).trans (assemble_xform_data bytes).symm
  | init | init3 | xform | wipe | data | key | iv | initk | init3k | enc | dec => rfl

/-! ### Acceptance of a command word, a data beat, the host's take -/

theorem State.busy_eq_false_iff (s : State) : s.busy = false ↔ s.PH = .idle ∨ s.PH = .stream :=
  ⟨State.idle_or_stream, fun h => h.elim State.busy_of_idle State.busy_of_stream⟩

/-- While an operation runs every offer but `rst` waits in the host's list, and the operation goes one position on (R31). -/
theorem step_busy {s : State} {e : HostEvent} {rest : List HostEvent} (offer : s.nextOffer = some (e, rest))
    (noReset : e ≠ .rst) (busy : s.busy = true) : step s = .next s.seqStep ∧ s.seqStep.host = s.host := by
  obtain ⟨host, -⟩ := s.seqStep_frame
  exact ⟨(StepCase.running busy (by simp [offer, noReset])).step, host⟩

/-- Settles O12: `cmd_ready` from the phase; while it is 0 `exec` leaves the state, and the step is a position of the running
operation or a delivery, neither of which touches the offers. -/
theorem commandsWaitUntilReady : Obligations.CommandsWaitUntilReady := by
  refine ⟨fun s => ?_, fun s notReady => ?_, fun s w rest offer notReady => ⟨step_busy offer (by simp), fun idle => ?_⟩⟩
  · rw [s.cmdReady_iff, s.busy_eq_false_iff]
  · simp [exec, execInit, execInit3, execXform, execWipe, notReady]
  · exact ⟨(StepCase.blocked idle offer notReady).step, s.deliver_host⟩

/-- An accepted command word that decodes is run in the state with the offer taken (R81, R86). -/
theorem step_command {s : State} {w : CommandWord} {rest : List HostEvent} {i : Instr}
    (offer : s.nextOffer = some (.cmd w, rest)) (ready : s.cmdReady = true) (dec : decodeCommand w = .ok i) :
    step s = exec i (s.withHost rest) := by
  rw [step_cmd_ready offer ready, acceptWord, dec]

/-- A data byte is the next offer only in a call, so its beat happens at once (R141). -/
theorem step_data {s : State} {d : Byte} {rest : List HostEvent} (offer : s.nextOffer = some (.data d, rest)) :
    step s = exec (.data d) (s.withHost rest) := by
  have streaming := State.nextOffer_data offer
  rw [(StepCase.data streaming offer).step]
  exact (exec_data_streaming (s := s.withHost rest) streaming d).symm

/-- A table word is a command word of 32 bits or a data byte of 8 bits (log 15). -/
theorem decodeTableWord_inv {nbits w : Nat} {i : Instr} (h : decodeTableWord nbits w = some i) :
    (nbits = 32 ∧ decodeCommand (BitVec.ofNat 32 w) = .ok i) ∨ (nbits = 8 ∧ i = .data (BitVec.ofNat 8 w)) := by
  rw [decodeTableWord] at h
  split_ifs at h with command data
  · obtain ⟨width, -⟩ := command
    refine .inl ⟨width, ?_⟩
    cases dec : decodeCommand (BitVec.ofNat 32 w) with
    | error r => simp [decode, dec, Except.toOption] at h
    | ok j => simpa [decode, dec, Except.toOption] using h
  · obtain ⟨width, -⟩ := data
    cases h
    exact .inr ⟨width, rfl⟩

theorem State.cmdReady_cmdOpened (s : State) : s.cmdOpened.cmdReady = true := by
  rw [State.cmdReady_iff]
  refine ⟨?_, rfl⟩
  cases busy : s.busy with
  | true => exact State.busy_of_idle (by simp [State.cmdOpened, busy])
  | false => exact (State.busy_congr (by simp [State.cmdOpened, busy])).trans busy

/-- The fetched command word is the next offer, before the host's earlier ones, and it can be accepted (log 10). -/
theorem State.withFetchWord_command (s : State) (w : Nat) :
    (s.withFetchWord 32 w).nextOffer = some (.cmd (BitVec.ofNat 32 w), s.host) ∧
      (s.withFetchWord 32 w).cmdReady = true :=
  ⟨rfl, s.cmdReady_cmdOpened⟩

/-- The fetched data byte is the next offer, before the host's earlier ones (log 10). -/
theorem State.withFetchWord_data (s : State) (w : Nat) :
    (s.withFetchWord 8 w).nextOffer = some (.data (BitVec.ofNat 8 w), s.host) := rfl

/-- Settles O11: a command word, a data beat, and a table word, which is fetched as one of the two. -/
theorem stepRunsTheDecodedInstruction : Obligations.StepRunsTheDecodedInstruction := by
  refine ⟨fun _ _ _ _ => step_command, fun _ _ _ => step_data, fun s nbits w i h => ?_⟩
  rcases decodeTableWord_inv h with ⟨rfl, dec⟩ | ⟨rfl, rfl⟩
  · obtain ⟨offer, ready⟩ := s.withFetchWord_command w
    exact step_command offer ready dec
  · exact step_data (s.withFetchWord_data w)

/-- Settles O18: the take is the delivery of the oldest output, in the state with the offer taken. -/
theorem takeDeliversTheOldestByte : Obligations.TakeDeliversTheOldestByte := by
  refine fun s rest offer => ⟨fun idle empty => ?_, fun q qs idle outstanding => ?_, step_busy offer (by simp)⟩
  · rw [(StepCase.take idle offer).step, State.deliver_nil (s := s.withHost rest) empty]
    rfl
  · rw [(StepCase.take idle offer).step, State.deliver_cons (s := s.withHost rest) outstanding]
    rfl

end Sys2Proof.Machine

/-! PROOFS. The statements of 40_ksa.md: the identity fill (R114), the round and its counters (R110, R111), the schedule pass
(R112, R113, R121), and the two initializations against the document's protocols (R115 to R123). -/

namespace Sys2Proof.Machine

/-! ### The identity fill -/

theorem State.readP_identityFill (s : State) (a : Byte) : s.identityFill.readP a = a :=
  State.readP_storeAll s id a

theorem State.isPermutation_identityFill (s : State) : s.identityFill.IsPermutation := by
  have identity : s.identityFill.readP = id := funext s.readP_identityFill
  rw [State.IsPermutation, identity]
  exact Function.bijective_id

/-- Settles O22: the fill is a loop over all entries, which leaves its own values and none of the old ones. -/
theorem fillMakesTheIdentity : Obligations.FillMakesTheIdentity := fun s =>
  ⟨s.readP_identityFill, rfl, State.fullyWritten_storeAll s id, s.isPermutation_identityFill, rfl,
    fun _ hs ht => Memory.storeAll_forgets id hs.1 ht.1⟩

/-! ### One round and its counters -/

/-- Settles O23: `P` by the swap of the round, `J` by its two cases, every other field by its update. -/
theorem ksaRoundReadsThenSwaps : Obligations.KsaRoundReadsThenSwaps := by
  intro s bank L n a s1 t
  have wrap (last : s.J.toNat + 1 = L.toNat) : t.J = 0#6 := if_pos last
  have next (notLast : s.J.toNat + 1 ≠ L.toNat) : t.J = s.J + 1#6 := if_neg notLast
  exact ⟨s.readP_ksaRound bank L, rfl, rfl, wrap, next, rfl, rfl, rfl, rfl, rfl, rfl, ⟨rfl, rfl, rfl, rfl, rfl, rfl⟩,
    rfl, rfl, rfl, rfl⟩

/-- Settles O24: `M` and `J` by their inductions over the rounds, and the position index is the low byte of `M`. -/
theorem materialIndexCountsModuloLength : Obligations.MaterialIndexCountsModuloLength := by
  intro s bank L m low high startM startJ bound
  rw [← State.ksaRounds_eq_iterate]
  have start : s.M.toNat = 0 := by rw [startM]; rfl
  have counted := State.ksaRounds_M bank L m s (by omega)
  have indexed := State.ksaRounds_J bank ((lengthOk_iff L).mpr ⟨low, high⟩) m s (by rw [startJ, start]; simp)
  rw [start, Nat.zero_add] at counted indexed
  refine ⟨counted, indexed, indexed ▸ Nat.mod_lt m (by omega), ?_⟩
  rw [State.ksaPos_eq, counted, BitVec.toNat_ofNat]

/-! ### A schedule pass -/

theorem State.ksaPass_ok (s : State) (bank : BitVec 1) {L : Byte} (ok : lengthOk L = true) :
    s.ksaPass bank L = .ok (s.ksaRun bank L) := if_pos ok

theorem State.ksaPass_error (s : State) (bank : BitVec 1) {L : Byte} (bad : lengthOk L = false) :
    s.ksaPass bank L = .error (s.raiseInvalidSize L) := if_neg (by simp [bad])

theorem lengthOk_eq_false_iff (L : Byte) : lengthOk L = false ↔ L.toNat < 16 ∨ 64 < L.toNat := by
  rw [← Bool.not_eq_true, lengthOk_iff]
  omega

theorem State.sameFlags_ksaRun (s : State) (bank : BitVec 1) (L : Byte) : SameFlags s (s.ksaRun bank L) := by
  simp [SameFlags]

theorem State.sameEnvironment_ksaRun (s : State) (bank : BitVec 1) (L : Byte) : SameEnvironment s (s.ksaRun bank L) := by
  simp [SameEnvironment]

/-- Settles O25: the pass is its length check, then the run of 768 rounds or the raise. -/
theorem schedulePassIsCheckThen768Rounds : Obligations.SchedulePassIsCheckThen768Rounds := by
  refine fun s bank L => ⟨fun low high => ?_, fun bad => s.ksaPass_error bank ((lengthOk_eq_false_iff L).mpr bad)⟩
  have ok := (lengthOk_iff L).mpr ⟨low, high⟩
  exact ⟨_, s.ksaPass_ok bank ok, s.ksaRun_eq_iterate bank L, s.ksaRun_M bank L, s.ksaRun_J bank ok, s.ksaRun_N bank L,
    s.ksaRun_PASS bank L, s.ksaRun_KL bank L, s.ksaRun_IL bank L, s.ksaRun_X bank L, s.ksaRun_outQ bank L,
    s.sameFlags_ksaRun bank L, s.sameEnvironment_ksaRun bank L⟩

/-- Settles O26: a round is one swap, a completed pass only rounds, and the raise does not write `P`. -/
theorem schedulePassKeepsPermutation : Obligations.SchedulePassKeepsPermutation := by
  refine fun s bank L => ⟨rfl, ?_⟩
  cases check : lengthOk L with
  | true =>
    rw [s.ksaPass_ok bank check]
    refine ⟨fun t perm pass => ?_, nofun⟩
    cases pass
    exact State.isPermutation_ksaRun perm bank L
  | false =>
    rw [s.ksaPass_error bank check]
    refine ⟨nofun, fun t pass => ?_⟩
    cases pass
    rfl

/-! ### An initialization over admitted lengths -/

/-- The state after the passes of the standard protocol: the key, then the IV unless its length is 0 (R116). -/
def State.standardPasses (s : State) (x : Bool) (klen ivlen : Byte) : State :=
  if ivlen = 0x00#8 then s.keyed x klen ivlen else (s.keyed x klen ivlen).ivPass ivlen

/-- The state after the last pass of `INIT` (`x = false`) or `INIT3` (`x = true`), which ends with the key again (R117). -/
def State.allPasses (s : State) (x : Bool) (klen ivlen : Byte) : State :=
  if x then (s.standardPasses x klen ivlen).keyAgain klen else s.standardPasses x klen ivlen

theorem State.allPasses_standard (s : State) (klen ivlen : Byte) :
    s.allPasses false klen ivlen = s.standardPasses false klen ivlen := if_neg Bool.false_ne_true

theorem State.allPasses_strengthened (s : State) (klen ivlen : Byte) :
    s.allPasses true klen ivlen = (s.standardPasses true klen ivlen).keyAgain klen := if_pos rfl

/-- What holds of the filled state and every pass keeps, whatever its number, holds after the last pass. -/
theorem State.allPasses_induct (Q : State → Prop) (s : State) (x : Bool) (klen ivlen : Byte)
    (filled : Q (s.filled x klen ivlen))
    (keep : ∀ (t : State) (p : BitVec 2) (bank : BitVec 1) (L : Byte), Q t →
      Q (({ t with PASS := p } : State).ksaRun bank L)) :
    Q (s.allPasses x klen ivlen) := by
  have keyed : Q (s.keyed x klen ivlen) := keep (s.filled x klen ivlen) 0#2 0#1 klen filled
  have standard : Q (s.standardPasses x klen ivlen) := by
    unfold State.standardPasses
    split_ifs
    · exact keyed
    · exact keep (s.keyed x klen ivlen) 1#2 1#1 ivlen keyed
  unfold State.allPasses
  split_ifs
  · exact keep (s.standardPasses x klen ivlen) 2#2 0#1 klen standard
  · exact standard

theorem State.isPermutation_allPasses (s : State) (x : Bool) (klen ivlen : Byte) : (s.allPasses x klen ivlen).IsPermutation :=
  State.allPasses_induct State.IsPermutation s x klen ivlen (s.isPermutation_filled x klen ivlen)
    fun t p bank L perm => State.isPermutation_ksaRun (s := { t with PASS := p }) perm bank L

theorem State.fullyWritten_allPasses (s : State) (x : Bool) (klen ivlen : Byte) : (s.allPasses x klen ivlen).FullyWritten :=
  State.allPasses_induct State.FullyWritten s x klen ivlen (s.fullyWritten_filled x klen ivlen)
    fun t p bank L written => State.fullyWritten_ksaRun (s := { t with PASS := p }) written bank L

theorem State.allPasses_M (s : State) (x : Bool) (klen ivlen : Byte) : (s.allPasses x klen ivlen).M = 768#10 := by
  unfold State.allPasses State.standardPasses
  split_ifs <;> simp

/-- The last pass run (R28, R118). -/
theorem State.allPasses_PASS (s : State) (x : Bool) (klen ivlen : Byte) :
    (s.allPasses x klen ivlen).PASS = if x then 2#2 else if ivlen = 0x00#8 then 0#2 else 1#2 := by
  unfold State.allPasses State.standardPasses
  split_ifs <;> simp

section
variable {klen ivlen : Byte} (key : AdmittedKey klen) (iv : AdmittedIv ivlen) (s : State) (x : Bool)
include key iv

/-- `J` at the end of the last pass, over that pass's length (R111). -/
theorem State.allPasses_J : (s.allPasses x klen ivlen).J.toNat =
    768 % if x then klen.toNat else if ivlen = 0x00#8 then klen.toNat else ivlen.toNat := by
  rw [admittedKey_iff] at key
  unfold State.allPasses State.standardPasses
  cases x with
  | true => exact State.keyAgain_J _ key
  | false =>
    simp only [Bool.false_eq_true, if_false]
    split_ifs with zero
    · exact s.keyed_J false ivlen key
    · exact State.ivPass_J _ (((admittedIv_iff ivlen).mp iv).resolve_left zero)

/-- Over admitted lengths an initialization is its passes and the completion (R116, R117, R119). -/
theorem State.initCommand_admitted : s.initCommand x klen ivlen = (s.allPasses x klen ivlen).completeInit := by
  rw [admittedKey_iff] at key
  rw [State.initCommand_eq, if_neg (by simp [key]), State.allPasses, State.standardPasses]
  by_cases zero : ivlen = 0x00#8
  · rw [if_pos zero, if_pos zero]
  · have ok := ((admittedIv_iff ivlen).mp iv).resolve_left zero
    rw [if_neg zero, if_neg zero, if_neg (by simp [ok])]

theorem State.initCommand_flags_admitted :
    (s.initCommand x klen ivlen).V = true ∧ (s.initCommand x klen ivlen).ERR = false ∧
      (s.initCommand x klen ivlen).ERRLEN = 0x00#8 := by
  have valid := (s.initCommand_V_iff x klen ivlen).mpr ⟨key, iv⟩
  exact ⟨valid, by rw [State.initCommand_ERR, valid]; rfl, s.initCommand_ERRLEN_admitted x key iv⟩

theorem State.status_initCommand_admitted : (s.initCommand x klen ivlen).status = 0x0002#16 := by
  obtain ⟨-, err, len⟩ := State.initCommand_flags_admitted key iv s x
  have ill := s.initCommand_ILL x klen ivlen
  rw [State.initCommand_admitted key iv] at err len ill ⊢
  exact State.status_completeInit err len ill

end

/-- What a completed initialization leaves: the flags, `P`, the sequencer's registers, and the frame (R30, R119). -/
theorem State.initCommand_completes {klen ivlen : Byte} (key : AdmittedKey klen) (iv : AdmittedIv ivlen) (s : State) (x : Bool) :
    let t := s.initCommand x klen ivlen
    t.V = true ∧ t.ERR = false ∧ t.ERRLEN = 0x00#8 ∧ t.ILL = false ∧ t.PH = .idle ∧ t.status = 0x0002#16 ∧
      t.IsPermutation ∧ t.FullyWritten ∧ t.KL = klen ∧ t.IL = ivlen ∧ t.X = x ∧ t.M = 768#10 ∧
      t.PASS = (if x then 2#2 else if ivlen = 0x00#8 then 0#2 else 1#2) ∧
      t.J.toNat = 768 % (if x then klen.toNat else if ivlen = 0x00#8 then klen.toNat else ivlen.toNat) ∧
      t.N = s.N ∧ t.outQ = s.outQ ∧ t.illSeen = s.illSeen ∧ SameEnvironment s t := by
  intro t
  obtain ⟨valid, noError, noLength⟩ := State.initCommand_flags_admitted key iv s x
  obtain ⟨n, outQ, seen, environment, ph, ill, kl, il, variant⟩ := s.initCommand_frame x klen ivlen
  have completed : t = (s.allPasses x klen ivlen).completeInit := State.initCommand_admitted key iv s x
  refine ⟨valid, noError, noLength, ill, ph, State.status_initCommand_admitted key iv s x, ?_, ?_, kl, il, variant, ?_, ?_, ?_,
    n, outQ, seen, environment⟩ <;> rw [completed]
  · exact State.isPermutation_completeInit (s.isPermutation_allPasses x klen ivlen)
  · exact State.fullyWritten_completeInit (s.fullyWritten_allPasses x klen ivlen)
  · exact s.allPasses_M x klen ivlen
  · exact s.allPasses_PASS x klen ivlen
  · exact State.allPasses_J key iv s x

/-- Settles O27, for each variant by what a completed initialization leaves. -/
theorem initializationCompletes : Obligations.InitializationCompletes := fun s klen ivlen ready key iv =>
  ⟨⟨_, exec_init ready klen ivlen, State.initCommand_completes key iv s false⟩,
    _, exec_init3 ready klen ivlen, State.initCommand_completes key iv s true⟩

/-! ### `INIT3` beside `INIT` -/

/-- An initialization that fails did not fail in the second key pass, which has a length that was admitted before (R123). -/
theorem State.initCommand_PASS_of_error {s : State} {x : Bool} {klen ivlen : Byte}
    (fails : (s.initCommand x klen ivlen).ERR = true) : (s.initCommand x klen ivlen).PASS ≠ 2#2 := by
  have bad := (s.initCommand_ERR_iff x klen ivlen).mp fails
  rw [State.initCommand_eq]
  cases key : lengthOk klen with
  | false => simp
  | true =>
    have iv : ¬ AdmittedIv ivlen := fun iv => bad ⟨(admittedKey_iff klen).mpr key, iv⟩
    obtain ⟨notZero, notOk⟩ := not_or.mp ((admittedIv_iff ivlen).not.mp iv)
    simp [notZero, notOk]

/-- Settles O30: which lengths fail, and the length reported, do not depend on the variant. -/
theorem init3FailsExactlyWhenInitDoes : Obligations.Init3FailsExactlyWhenInitDoes := by
  intro s klen ivlen ready
  have valid : (s.initCommand true klen ivlen).V = (s.initCommand false klen ivlen).V := by
    rw [State.initCommand_V, State.initCommand_V]
  obtain ⟨-, -, -, -, -, -, latched, -⟩ := s.initCommand_frame true klen ivlen
  refine ⟨_, _, exec_init ready klen ivlen, exec_init3 ready klen ivlen, ?_, ?_, valid, latched,
    State.initCommand_PASS_of_error⟩
  · rw [State.initCommand_ERR, State.initCommand_ERR, valid]
  · rw [State.initCommand_ERRLEN, State.initCommand_ERRLEN]

/-! ### The document's protocols -/

/-- `t` is how the engine answers the outcome of a document's initialization: its permutation and running state, or its
rejected length (R119, R172). -/
def State.Answers (t : State) : Except Nat Cipher → Prop
  | .ok c => t.V = true ∧ t.ERR = false ∧ t.cipher = c
  | .error len => t.V = false ∧ t.ERR = true ∧ t.ERRLEN.toNat = len

section
variable {klen ivlen : Byte} (s : State)

/-- Behind an admitted key the standard protocol goes on from the cipher state after the engine's key pass (R116). -/
theorem Cipher.standard_keyed (ok : lengthOk klen = true) (x : Bool) :
    Cipher.standard (s.material 0#1 klen) (s.material 1#1 ivlen) =
      if ivlen = 0x00#8 then .ok (s.keyed x klen ivlen).cipher
      else (s.keyed x klen ivlen).cipher.schedule (s.material 1#1 ivlen) := by
  rw [Cipher.standard, Cipher.schedule_material, if_pos ok, ← State.cipher_keyed s x ivlen ok, State.length_material]
  by_cases zero : ivlen = 0x00#8
  · rw [if_pos zero]
    exact if_neg fun notEmpty => notEmpty (congrArg BitVec.toNat zero)
  · rw [if_neg zero]
    exact if_pos fun empty => zero (BitVec.eq_of_toNat_eq empty)

/-- Over admitted lengths the standard protocol ends in the cipher state after the engine's passes (R116). -/
theorem Cipher.standard_admitted (key : AdmittedKey klen) (iv : AdmittedIv ivlen) (x : Bool) :
    Cipher.standard (s.material 0#1 klen) (s.material 1#1 ivlen) = .ok (s.standardPasses x klen ivlen).cipher := by
  rw [Cipher.standard_keyed s ((admittedKey_iff klen).mp key) x, State.standardPasses]
  by_cases zero : ivlen = 0x00#8
  · rw [if_pos zero, if_pos zero]
  · have ok := ((admittedIv_iff ivlen).mp iv).resolve_left zero
    rw [if_neg zero, if_neg zero, Cipher.schedule_material, if_pos ok, State.cipher_ivPass _ ok,
      State.material_congr (State.keyed_MAT s x klen ivlen)]

/-- Over other lengths the standard protocol fails with the length the engine reports (R113, R174). -/
theorem Cipher.standard_rejected (bad : ¬ (AdmittedKey klen ∧ AdmittedIv ivlen)) (x : Bool) :
    Cipher.standard (s.material 0#1 klen) (s.material 1#1 ivlen) =
      .error (s.initCommand x klen ivlen).ERRLEN.toNat := by
  by_cases key : AdmittedKey klen
  · have iv : ¬ AdmittedIv ivlen := fun iv => bad ⟨key, iv⟩
    obtain ⟨notZero, notOk⟩ := not_or.mp ((admittedIv_iff ivlen).not.mp iv)
    rw [s.initCommand_ERRLEN_badIv x key iv, Cipher.standard_keyed s ((admittedKey_iff klen).mp key) x, if_neg notZero,
      Cipher.schedule_material, if_neg notOk]
  · rw [s.initCommand_ERRLEN_badKey x ivlen key, Cipher.standard, Cipher.schedule_material,
      if_neg ((admittedKey_iff klen).not.mp key)]

theorem Cipher.strengthened_admitted (key : AdmittedKey klen) (iv : AdmittedIv ivlen) :
    Cipher.strengthened (s.material 0#1 klen) (s.material 1#1 ivlen) = .ok (s.allPasses true klen ivlen).cipher := by
  have ok := (admittedKey_iff klen).mp key
  have mat : (s.standardPasses true klen ivlen).MAT = s.MAT := by
    unfold State.standardPasses
    split_ifs <;> simp
  rw [Cipher.strengthened, Cipher.standard_admitted s key iv true]
  rw [State.allPasses_strengthened, State.cipher_keyAgain _ ok, State.material_congr mat]
  exact (Cipher.schedule_material _ s 0#1 klen).trans (if_pos ok)

theorem Cipher.strengthened_rejected (bad : ¬ (AdmittedKey klen ∧ AdmittedIv ivlen)) :
    Cipher.strengthened (s.material 0#1 klen) (s.material 1#1 ivlen) =
      .error (s.initCommand true klen ivlen).ERRLEN.toNat := by
  rw [Cipher.strengthened, Cipher.standard_rejected s bad true]

/-- An initialization answers a protocol that ends in its passes' cipher state over admitted lengths and fails with the
length it reports over others. -/
theorem State.initCommand_answers (x : Bool) {outcome : Except Nat Cipher}
    (ends : AdmittedKey klen → AdmittedIv ivlen → outcome = .ok (s.allPasses x klen ivlen).cipher)
    (fails : ¬ (AdmittedKey klen ∧ AdmittedIv ivlen) → outcome = .error (s.initCommand x klen ivlen).ERRLEN.toNat) :
    (s.initCommand x klen ivlen).Answers outcome := by
  by_cases admitted : AdmittedKey klen ∧ AdmittedIv ivlen
  · obtain ⟨key, iv⟩ := admitted
    obtain ⟨valid, noError, -⟩ := State.initCommand_flags_admitted key iv s x
    rw [ends key iv]
    refine ⟨valid, noError, ?_⟩
    rw [State.initCommand_admitted key iv, State.cipher_completeInit]
  · rw [fails admitted]
    have invalid : (s.initCommand x klen ivlen).V = false :=
      Bool.eq_false_iff.mpr fun valid => admitted ((s.initCommand_V_iff x klen ivlen).mp valid)
    exact ⟨invalid, (s.initCommand_ERR_iff x klen ivlen).mpr admitted, rfl⟩

end

/-- Settles O31: the passes of `INIT` are those of the standard protocol, and both reject the same length. -/
theorem initImplementsTheStandardProtocol : Obligations.InitImplementsTheStandardProtocol := by
  refine fun s klen ivlen ready => ⟨_, exec_init ready klen ivlen, ?_⟩
  refine s.initCommand_answers false (fun key iv => ?_) fun bad => Cipher.standard_rejected s bad false
  rw [Cipher.standard_admitted s key iv false, State.allPasses_standard]

/-- Settles O32: the same with the second key pass of `INIT3`. -/
theorem init3ImplementsTheStrengthenedProtocol : Obligations.Init3ImplementsTheStrengthenedProtocol :=
  fun s klen ivlen ready => ⟨_, exec_init3 ready klen ivlen,
    s.initCommand_answers true (Cipher.strengthened_admitted s) (Cipher.strengthened_rejected s)⟩

/-! ### Without an IV -/

/-- What every position of a running operation keeps, the sequencer's run keeps. -/
theorem State.seqRun_induct (Q : State → Prop) (keep : ∀ t, Q t → Q t.seqStep) (k : Nat) {s : State} (h : Q s) :
    Q (State.seqRun k s) := by
  induction k generalizing s with
  | zero => exact h
  | succ k ih =>
    rw [State.seqRun]
    split_ifs
    · exact ih (keep s h)
    · exact h

/-- No IV is latched and the IV pass does not run (R118). -/
def State.WithoutIv (s : State) : Prop := s.IL = 0x00#8 ∧ s.PASS ≠ 1#2

theorem State.WithoutIv.enterPass {s : State} (h : s.WithoutIv) {p : BitVec 2} (notIv : p ≠ 1#2) :
    (s.enterPass p).WithoutIv := by
  unfold State.enterPass
  split_ifs <;> exact ⟨h.1, notIv⟩

theorem State.WithoutIv.nextPass {s : State} (h : s.WithoutIv) : s.nextPass ≠ some 1#2 := by
  unfold State.nextPass
  rw [if_neg fun e => e.2 h.1]
  split_ifs <;> decide

/-- The IV pass is entered only from the end of the key pass, and only with an IV length other than 0 (R118). -/
theorem State.WithoutIv.seqStep {s : State} (h : s.WithoutIv) : s.seqStep.WithoutIv := by
  cases ph : s.PH with
  | idle => rwa [State.seqStep, ph]
  | stream => rwa [State.seqStep, ph]
  | fill =>
    rw [State.seqStep_fill ph]
    exact State.WithoutIv.enterPass (s := { s.identityFill with PH := .ksa }) h (by decide)
  | wiping =>
    rw [State.seqStep_wiping ph]
    exact h
  | ksa =>
    by_cases m : s.M = 768#10
    · rw [State.seqStep_end ph m]
      cases next : s.nextPass with
      | none => rw [State.endPass_none next]; exact h
      | some p =>
        rw [State.endPass_some next]
        exact h.enterPass fun e => h.nextPass (e ▸ next)
    · rw [State.seqStep_round ph m]
      exact h

theorem State.WithoutIv.passBank {s : State} (h : s.WithoutIv) : passBank s.PASS = 0#1 := if_neg h.2

/-- Settles O33: both initializations read bank 1 below the length 0 only, that is nowhere; and no position enters the IV
pass. -/
theorem ivBankIsNotReadWithoutAnIv : Obligations.IvBankIsNotReadWithoutAnIv := by
  intro s klen banks ready same
  have readyToo : ({ s with MAT := banks } : State).cmdReady = true := ready
  have key : s.AgreesBelow banks 0#1 klen := fun idx _ => same idx
  have iv : s.AgreesBelow banks 1#1 0x00#8 := fun idx below => absurd below (Nat.not_lt_zero _)
  refine ⟨⟨_, exec_init ready klen _, ?_⟩, ⟨_, exec_init3 ready klen _, ?_⟩, fun x k => ?_⟩
  · rw [exec_init readyToo, State.initCommand_withMat false key iv]
  · rw [exec_init3 readyToo, State.initCommand_withMat true key iv]
  · have start : (s.acceptInit x klen 0x00#8).WithoutIv := ⟨rfl, show (0#2 : BitVec 2) ≠ 1#2 by decide⟩
    exact (State.seqRun_induct State.WithoutIv (fun _ h => h.seqStep) k start).passBank

end Sys2Proof.Machine

/-! PROOFS. The statements of 41_keystream.md: opening a call (R140, R151), data beats and their outputs (R141, R142, R146),
runs of data beats against the document's transform (R144, R145, R147), and the permutation in an open call (R149). -/

namespace Sys2Proof.Machine

/-! ### Opening a call -/

/-- Settles O38: `XFORM` runs `openCall`, by its two cases on `V`. -/
theorem xformOpensACall : Obligations.XformOpensACall := by
  refine fun s ready => ⟨fun valid => ?_, fun invalid => ⟨_, exec_xform ready, ?_⟩⟩
  · rw [exec_xform ready, State.openCall_valid valid]
  · rw [State.openCall_invalid invalid]
    rfl

/-- An accepted `XFORM` goes on with the beats behind it in the opened call. -/
theorem execAll_xform {s : State} (ready : s.cmdReady = true) (beats : List Instr) :
    execAll (.xform :: beats) s = execAll beats s.openCall := by
  rw [execAll, exec_xform ready]

theorem State.openCall_openCall {s : State} (valid : s.V = true) : s.openCall.openCall = s.openCall := by
  rw [State.openCall_valid (s := s.openCall) (by rwa [State.openCall_V]), State.openCall_valid valid]

theorem State.openCall_outQ (s : State) : s.openCall.outQ = s.outQ := by rw [State.openCall_frame]

/-- A call opened with no output outstanding can be closed at once by the next command word (R81, R151). -/
theorem State.cmdReady_openCall {s : State} (ready : s.cmdReady = true) : s.openCall.cmdReady = true := by
  obtain ⟨-, empty⟩ := s.cmdReady_iff.mp ready
  exact s.openCall.cmdReady_iff.mpr ⟨s.busy_openCall, s.openCall_outQ.trans empty⟩

/-- Settles O45: a second `XFORM` is accepted in the call the first one opened, and opens it again. -/
theorem emptyCallChangesNothing : Obligations.EmptyCallChangesNothing := by
  intro s ready valid
  obtain ⟨-, empty⟩ := s.cmdReady_iff.mp ready
  refine ⟨s.openCall, execAll_xform ready [], ?_⟩
  have again : execAll [.xform, .xform] s = .next s.openCall := by
    rw [execAll_xform ready, execAll_xform (State.cmdReady_openCall ready), State.openCall_openCall valid]
    rfl
  rw [again, State.openCall_valid valid]
  exact ⟨rfl, rfl, rfl, rfl, rfl, empty, rfl⟩

/-! ### One data beat -/

/-- Outside a call the beat does not happen (R141). -/
theorem exec_data_outside {s : State} (h : s.PH ≠ .stream) (d : Byte) : exec (.data d) s = .next s := by
  have notReady : ¬ s.dinReady = true := fun ready => h (s.dinReady_iff.mp ready)
  rw [exec, execData, if_neg notReady]

/-- While `din_ready = 0` data bytes alone give no offer that can happen (R141). -/
theorem firstOffer_onlyData (ds : List Byte) : firstOffer false (ds.map HostEvent.data) = none := by
  induction ds with
  | nil => rfl
  | cons d ds ih => simp [firstOffer, ih]

/-- Settles O13: `din_ready` from the phase, the beat that does not happen, and a step that finds neither an offer nor an
output. -/
theorem dataOutsideACallIsNotAccepted : Obligations.DataOutsideACallIsNotAccepted := by
  refine ⟨State.dinReady_iff, fun s d outside => exec_data_outside outside d, fun s ds idle empty onlyData => ?_⟩
  have notReady : s.dinReady = false := by simp [State.dinReady, State.strm, idle]
  have noOffer : s.nextOffer = none := by rw [State.nextOffer, notReady, onlyData, firstOffer_onlyData]
  rw [(StepCase.waiting (State.busy_of_idle idle) noOffer).step, State.deliver_nil empty]

/-- Settles O40: `P` by the swap of the step, every other field by its update. -/
theorem dataBeatIsOneKeystreamStep : Obligations.DataBeatIsOneKeystreamStep := by
  intro s d streaming a s1 b z
  exact ⟨s.ksStep d, exec_data_streaming streaming d, rfl, rfl, rfl, s.readP_ksStep d, ⟨rfl, rfl, rfl, rfl, rfl, rfl⟩,
    ⟨rfl, rfl, rfl, rfl, rfl, rfl⟩, rfl, rfl, rfl, rfl⟩

/-! ### What a step does to the outputs -/

theorem State.seqStep_outputs (s : State) : s.seqStep.dout ++ s.seqStep.outQ = s.dout ++ s.outQ := by
  obtain ⟨-, outQ, dout, -⟩ := s.seqStep_frame
  rw [outQ, dout]

theorem State.initCommand_outputs (s : State) (x : Bool) (klen ivlen : Byte) :
    (s.initCommand x klen ivlen).dout ++ (s.initCommand x klen ivlen).outQ = s.dout ++ s.outQ := by
  obtain ⟨-, outQ, -, ⟨-, -, dout, -⟩, -⟩ := s.initCommand_frame x klen ivlen
  rw [outQ, dout]

theorem State.openCall_outputs (s : State) : s.openCall.dout ++ s.openCall.outQ = s.dout ++ s.outQ := by
  rw [State.openCall_frame]

/-- Only a data beat and `rst` change the bytes taken followed by those outstanding (R146, R200). -/
theorem StepCase.keeps_outputs {s t : State} (c : StepCase s t) (noData : ∀ d rest, s.nextOffer ≠ some (.data d, rest))
    (noReset : ∀ rest, s.nextOffer ≠ some (.rst, rest)) : t.dout ++ t.outQ = s.dout ++ s.outQ := by
  cases c with
  | reset offer => exact absurd offer (noReset _)
  | data streaming offer => exact absurd offer (noData _ _)
  | running => exact s.seqStep_outputs
  | waiting => exact s.deliver_out
  | blocked => exact s.deliver_out
  | take => exact State.deliver_out _
  | mat => rfl
  | init => exact State.initCommand_outputs _ _ _ _
  | init3 => exact State.initCommand_outputs _ _ _ _
  | xform => exact State.openCall_outputs _
  | wipe => rfl
  | refused => rfl

/-- Settles O17: the data beat and `rst` by their updates, every other step by the cases of its inversion. -/
theorem outputsKeepTheirOrder : Obligations.OutputsKeepTheirOrder := by
  refine fun s t h => ⟨fun d rest offer => ?_, fun rest offer => ?_, (step_inv h).keeps_outputs⟩
  · rw [(StepCase.data (State.nextOffer_data offer) offer).step] at h
    cases h
    exact ⟨rfl, rfl⟩
  · rw [(StepCase.reset offer).step] at h
    cases h
    exact ⟨rfl, rfl⟩

/-! ### The document's transform -/

/-- The first `n` bytes of the keystream from position `k` on: what zero bytes are transformed into (R142). -/
def Cipher.keystream (c : Cipher) (k n : Nat) : List Byte := (c.transform k (List.replicate n 0x00#8)).1

theorem Cipher.length_transform (c : Cipher) (k : Nat) (ds : List Byte) : (c.transform k ds).1.length = ds.length := by
  induction ds generalizing c k with
  | nil => rfl
  | cons d ds ih => simp [Cipher.transform, ih]

theorem Cipher.length_keystream (c : Cipher) (k n : Nat) : (c.keystream k n).length = n := by
  rw [Cipher.keystream, Cipher.length_transform, List.length_replicate]

/-- A destination byte is the source byte xor the keystream byte, and the state after it does not depend on the source
(R142). -/
theorem Cipher.transformByte_eq (c : Cipher) (k : Nat) (d : Byte) :
    c.transformByte k d = (d ^^^ (c.transformByte k 0x00#8).1, (c.transformByte k 0x00#8).2) := by
  simp [Cipher.transformByte]

/-- The destination is the source xor the keystream (R142). -/
theorem Cipher.transform_eq_zipWith_keystream (c : Cipher) (k : Nat) (ds : List Byte) :
    (c.transform k ds).1 = List.zipWith (· ^^^ ·) ds (c.keystream k ds.length) := by
  induction ds generalizing c k with
  | nil => rfl
  | cons d ds ih =>
    have step := c.transformByte_eq k d
    rw [Cipher.transform, step, ih]
    rfl

/-- Transforming a destination byte gives the source byte back and leaves the same state (R147). -/
theorem Cipher.transformByte_transformByte (c : Cipher) (k : Nat) (d : Byte) :
    c.transformByte k (c.transformByte k d).1 = (d, (c.transformByte k d).2) := by
  simp [Cipher.transformByte]

/-- Decryption is encryption: transforming a destination gives the source back and leaves the same state (R147). -/
theorem Cipher.transform_transform (c : Cipher) (k : Nat) (ds : List Byte) :
    c.transform k (c.transform k ds).1 = (ds, (c.transform k ds).2) := by
  induction ds generalizing c k with
  | nil => rfl
  | cons d ds ih => simp [Cipher.transform, Cipher.transformByte_transformByte, ih]

/-! ### Runs of data beats -/

theorem State.steps_append (s : State) (ds es : List Byte) : s.steps (ds ++ es) = (s.steps ds).steps es :=
  List.foldl_append

/-- After as many data beats the states differ in the outputs only (R142, corner case 6). -/
theorem State.steps_data (s : State) {ds es : List Byte} (same : ds.length = es.length) :
    s.steps es = { s.steps ds with outQ := (s.steps es).outQ } := by
  induction ds generalizing s es with
  | nil => rw [List.length_eq_zero_iff.mp same.symm]
  | cons d ds ih =>
    cases es with
    | nil => cases same
    | cons e es =>
      have first : (s.ksStep e).steps ds = { (s.ksStep d).steps ds with outQ := ((s.ksStep e).steps ds).outQ } := by
        rw [s.ksStep_data d e, State.steps_withOutQ]
      have later := ih (s.ksStep e) (Nat.succ.inj same)
      rwa [first] at later

/-- Settles O41: the keystream is the document's, and `State.steps_data` compares the ends of the two runs. -/
theorem keystreamIsIndependentOfTheData : Obligations.KeystreamIsIndependentOfTheData := by
  intro s ds es streaming same
  have outputs (bytes : List Byte) : (s.steps bytes).outQ =
      s.outQ ++ List.zipWith (· ^^^ ·) bytes (s.cipher.keystream s.N.toNat bytes.length) := by
    rw [← Cipher.transform_eq_zipWith_keystream]
    exact (s.cipher_steps bytes (by simp)).2
  exact ⟨s.steps ds, s.steps es, s.cipher.keystream s.N.toNat ds.length, Cipher.length_keystream _ _ _,
    execAll_data streaming ds, execAll_data streaming es, outputs ds, same ▸ outputs es, s.steps_data same⟩

/-- Settles O42: both engines run the document's transform from the same cipher state and position, and it is its own
inverse. -/
theorem decryptionIsEncryption : Obligations.DecryptionIsEncryption := by
  intro s u ds sOpen uOpen sameCipher sameN
  obtain ⟨tCipher, tOut⟩ := s.cipher_steps ds (k := s.N.toNat) (by simp)
  obtain ⟨vCipher, vOut⟩ := u.cipher_steps (s.cipher.transform s.N.toNat ds).1 (k := s.N.toNat) (by simp [sameN])
  rw [sameCipher, Cipher.transform_transform] at vCipher vOut
  refine ⟨s.steps ds, u.steps _, _, Cipher.length_transform _ _ _, execAll_data sOpen ds, tOut, execAll_data uOpen _, vOut,
    vCipher.trans tCipher.symm, ?_⟩
  rw [State.steps_N, State.steps_N, sameN, Cipher.length_transform]

/-- Data beats leave the call open and the flags as they are (R142). -/
theorem State.steps_flags (s : State) (ds : List Byte) : SameFlags s (s.steps ds) := by
  rw [State.steps_frame]
  exact ⟨rfl, rfl, rfl, rfl, rfl, rfl⟩

/-- After a multiple of 256 bytes the index is what it was (R21). -/
theorem State.steps_N_of_multiple (s : State) {ds : List Byte} (multiple : ds.length % 256 = 0) :
    (s.steps ds).N = s.N := by
  have wrapped : BitVec.ofNat 8 ds.length = 0x00#8 := BitVec.eq_of_toNat_eq (by simpa using multiple)
  rw [State.steps_N, wrapped, BitVec.add_zero]

/-- Whether the host takes the outputs before a run of data beats or leaves them outstanding, the run adds the same bytes
and ends in the same cipher state and index (R146). -/
theorem State.steps_allTaken (s : State) (ds : List Byte) :
    s.outQ ++ (s.allTaken.steps ds).outQ = (s.steps ds).outQ ∧
      (s.allTaken.steps ds).cipher = (s.steps ds).cipher ∧ (s.allTaken.steps ds).N = (s.steps ds).N := by
  obtain ⟨takenCipher, takenOut⟩ := s.allTaken.cipher_steps ds (k := s.N.toNat) (by simp [State.allTaken])
  obtain ⟨cipher, out⟩ := s.cipher_steps ds (k := s.N.toNat) (by simp)
  refine ⟨?_, takenCipher.trans cipher.symm, ?_⟩
  · rw [takenOut, out]
    rfl
  · rw [State.steps_N, State.steps_N]
    rfl

/-! ### A whole call -/

section
variable {s : State} (valid : s.V = true)
include valid

theorem State.openCall_streaming : s.openCall.PH = .stream := by rw [State.openCall_valid valid]

theorem State.openCall_N : s.openCall.N = 0x00#8 := by rw [State.openCall_valid valid]

theorem State.cipher_openCall : s.openCall.cipher = s.cipher := by
  rw [State.openCall_valid valid]
  rfl

/-- An accepted `XFORM` on a valid engine and the data beats behind it run in the opened call (R140, R142). -/
theorem execAll_call (ready : s.cmdReady = true) (ds : List Byte) :
    execAll (.xform :: ds.map Instr.data) s = .next (s.openCall.steps ds) := by
  rw [execAll_xform ready, execAll_data (State.openCall_streaming valid)]

/-- In an open call the index is all that a new `XFORM` changes: at index 0 it changes nothing (R140, R145). -/
theorem State.openCall_of_open (ph : s.PH = .stream) (ill : s.ILL = false) (start : s.N = 0x00#8) : s.openCall = s := by
  rw [State.openCall_valid valid, ← start, ← ph, ← ill]

end

/-- Settles O43: the run of the call from the opened state, at position 0 and with no output outstanding. -/
theorem callImplementsTheTransform : Obligations.CallImplementsTheTransform := by
  intro s source ready valid
  obtain ⟨-, empty⟩ := s.cmdReady_iff.mp ready
  obtain ⟨cipher, out⟩ := s.openCall.cipher_steps source (k := 0) (State.openCall_N valid)
  obtain ⟨ph, v, -⟩ := s.openCall.steps_flags source
  rw [State.cipher_openCall valid] at cipher out
  refine ⟨_, execAll_call valid ready source, ?_, cipher, ?_, ph.trans (State.openCall_streaming valid), ?_⟩
  · rw [out, State.openCall_outQ, empty, List.nil_append]
  · rw [State.steps_N, State.openCall_N valid, BitVec.zero_add, BitVec.toNat_ofNat]
  · exact v.trans (s.openCall_V.trans valid)

/-- Settles O44: the first call ends at index 0, so that the `XFORM` of the second one changes nothing and its bytes go on
as those of the joined call do. -/
theorem cutsAtMultiplesOf256AreInvisible : Obligations.CutsAtMultiplesOf256AreInvisible := by
  intro s first second ready valid multiple
  obtain ⟨samePH, sameV, -, -, sameILL, -⟩ := s.openCall.steps_flags first
  have ph := samePH.trans (State.openCall_streaming valid)
  have v : (s.openCall.steps first).allTaken.V = true := sameV.trans (s.openCall_V.trans valid)
  have ill : (s.openCall.steps first).ILL = false := by rw [sameILL, State.openCall_ILL, valid, Bool.not_true]
  have start := (State.steps_N_of_multiple s.openCall multiple).trans (State.openCall_N valid)
  have reopened : (s.openCall.steps first).allTaken.openCall = (s.openCall.steps first).allTaken :=
    State.openCall_of_open v ph ill start
  have takenReady : (s.openCall.steps first).allTaken.cmdReady = true :=
    (State.cmdReady_iff _).mpr ⟨State.busy_of_stream ph, rfl⟩
  refine ⟨_, _, _, execAll_call valid ready first, execAll_call v takenReady second, execAll_call valid ready _, ?_⟩
  rw [reopened, State.steps_append]
  exact State.steps_allTaken _ second

/-! ### The permutation in an open call -/

theorem State.isPermutation_steps {s : State} (h : s.IsPermutation) (ds : List Byte) : (s.steps ds).IsPermutation := by
  induction ds generalizing s with
  | nil => exact h
  | cons d ds ih => exact ih (s := s.ksStep d) (State.isPermutation_ksStep h d)

/-- Settles O46: a step writes `P` by one swap, and a sound state with a call open is valid, so its `P` is a permutation. -/
theorem openCallKeepsPermutation : Obligations.OpenCallKeepsPermutation := by
  refine ⟨fun s d => ⟨s.ksStep_P d, fun perm => State.isPermutation_ksStep perm d⟩, fun s ds sound streaming => ?_⟩
  obtain ⟨valid, -⟩ := sound.flags.streamValid streaming
  obtain ⟨ph, -⟩ := s.steps_flags ds
  exact ⟨_, execAll_data streaming ds, ph.trans streaming,
    State.isPermutation_steps (sound.flags.validPermutation valid) ds⟩

end Sys2Proof.Machine

/-! PROOFS. The statements of 42_wipe.md: `WIPE` zeroes the cipher state (R160) and is idempotent (R161). -/

namespace Sys2Proof.Machine

/-- With every flag clear the status word is zero (R32). -/
theorem State.status_acceptWipe_zeroize (s : State) : s.acceptWipe.zeroize.status = 0x0000#16 := by
  simp only [State.status, State.strm, State.busy, State.zeroize_ERRLEN, State.zeroize_PH, State.zeroize_ILL,
    State.zeroize_ERR, State.zeroize_V, State.acceptWipe_ILL, State.acceptWipe_V]
  decide

theorem State.fullyWritten_acceptWipe_zeroize (s : State) : s.acceptWipe.zeroize.FullyWritten :=
  State.fullyWritten_storeAll s.acceptWipe fun _ => 0x00#8

/-- Settles O47: the zeroization writes all of `P`, clears every flag, and has its frame field by field. -/
theorem wipeZeroesTheCipherState : Obligations.WipeZeroesTheCipherState := fun s ready =>
  ⟨s.acceptWipe.zeroize, exec_wipe ready, s.readP_zeroize, s.fullyWritten_acceptWipe_zeroize, rfl, rfl, rfl, rfl, rfl, rfl, rfl,
    s.status_acceptWipe_zeroize, rfl, rfl, ⟨rfl, rfl, rfl, rfl, rfl, rfl⟩, ⟨rfl, rfl, rfl, rfl⟩⟩

/-- A wipe leaves no operation running and the outputs as they were, so the next command is accepted (R81). -/
theorem State.cmdReady_acceptWipe_zeroize {s : State} (ready : s.cmdReady = true) :
    s.acceptWipe.zeroize.cmdReady = true := by
  obtain ⟨-, noOutput⟩ := s.cmdReady_iff.mp ready
  exact (State.cmdReady_iff _).mpr ⟨State.busy_of_idle rfl, noOutput⟩

/-- The loop over the whole RAM gives its own result again: it keeps nothing of what it overwrites. -/
theorem Memory.storeAll_storeAll (f : Byte → Byte) {m : Memory} (h : m.wf Config.entries) :
    (m.storeAll f).storeAll f = m.storeAll f :=
  Memory.storeAll_forgets f (Memory.wf_storeAll f h) h

/-- The registers hold the wiped values already, so a second wipe could only change `P`, and rewrites it as it is (R161). -/
theorem State.acceptWipe_zeroize_idem {s : State} (mem : s.MemoryOk) :
    s.acceptWipe.zeroize.acceptWipe.zeroize = s.acceptWipe.zeroize :=
  congrArg (fun P => { s.acceptWipe.zeroize with P := P }) (Memory.storeAll_storeAll (fun _ => 0x00#8) mem.1)

/-- Settles O48: the wiped state accepts a second `WIPE`, which gives it again. -/
theorem wipeIsIdempotent : Obligations.WipeIsIdempotent := by
  intro s mem ready
  have again : exec .wipe s.acceptWipe.zeroize = .next s.acceptWipe.zeroize := by
    rw [exec_wipe (State.cmdReady_acceptWipe_zeroize ready), State.acceptWipe_zeroize_idem mem]
  exact ⟨_, exec_wipe ready, again, s.readP_zeroize, rfl, rfl, rfl, rfl, rfl, rfl, rfl⟩

end Sys2Proof.Machine

/-! PROOFS. The statements of 60_exceptions.md: what is left behind an invalid engine never reaches a port (R175, R201, R30),
every step answers (R171, R176), the two conditions E1 and E2 (R171 to R174), and the lifecycle (R180). -/

namespace Sys2Proof.Machine

/-! ### The free bytes and `N` under a position of a running operation -/

/-- Entering a pass reads neither the free bytes nor `N`. -/
theorem State.enterPass_withEpoch (s : State) (p : BitVec 2) (e : Nat) (n : Byte) :
    ({ s with pEpoch := e, N := n } : State).enterPass p = { s.enterPass p with pEpoch := e, N := n } := by
  cases ok : lengthOk (s.passLength p) with
  | true =>
    rw [State.enterPass_ok ok]
    exact State.enterPass_ok (s := { s with pEpoch := e, N := n }) ok
  | false =>
    rw [State.enterPass_bad ok]
    exact State.enterPass_bad (s := { s with pEpoch := e, N := n }) ok

theorem State.endPass_withEpoch (s : State) (e : Nat) (n : Byte) :
    ({ s with pEpoch := e, N := n } : State).endPass = { s.endPass with pEpoch := e, N := n } := by
  cases next : s.nextPass with
  | none =>
    rw [State.endPass_none next]
    exact State.endPass_none (s := { s with pEpoch := e, N := n }) next
  | some p =>
    rw [State.endPass_some next]
    exact (State.endPass_some (s := { s with pEpoch := e, N := n }) next).trans (s.enterPass_withEpoch p e n)

/-- A position of an operation carries a different epoch and a different `N` along, until the zeroization makes `N` equal:
the fill reads neither, and after it every entry of `P` is written. -/
theorem State.Inv.seqStep_withEpoch {s : State} (sound : s.Inv) (busy : s.busy = true) (e : Nat) (n : Byte) :
    ∃ n', ({ s with pEpoch := e, N := n } : State).seqStep = { s.seqStep with pEpoch := e, N := n' } := by
  rcases s.busy_iff.mp busy with ph | ph | ph
  · refine ⟨n, ?_⟩
    rw [State.seqStep_fill ph, State.seqStep_fill (s := { s with pEpoch := e, N := n }) ph]
    exact State.enterPass_withEpoch { s.identityFill with PH := .ksa } 0#2 e n
  · refine ⟨n, ?_⟩
    by_cases m : s.M = 768#10
    · rw [State.seqStep_end ph m, State.seqStep_end (s := { s with pEpoch := e, N := n }) ph m]
      exact s.endPass_withEpoch e n
    · rw [State.seqStep_round ph m, State.seqStep_round (s := { s with pEpoch := e, N := n }) ph m]
      exact State.ksaRound_withEpoch (State.InPass.of_ksa sound ph).written _ _ e n
  · refine ⟨0x00#8, ?_⟩
    rw [State.seqStep_wiping ph, State.seqStep_wiping (s := { s with pEpoch := e, N := n }) ph]
    rfl

theorem State.enterPass_not_stream {s : State} (noCall : s.PH ≠ .stream) (p : BitVec 2) : (s.enterPass p).PH ≠ .stream := by
  unfold State.enterPass
  split_ifs
  · exact noCall
  · nofun

/-- No position of an operation opens a call: `PH` becomes `KSA`, stays, or becomes `IDLE` (R29, R118). -/
theorem State.seqStep_not_stream {s : State} (busy : s.busy = true) : s.seqStep.PH ≠ .stream := by
  rcases s.busy_iff.mp busy with ph | ph | ph
  · rw [State.seqStep_fill ph]
    exact State.enterPass_not_stream (s := { s.identityFill with PH := .ksa }) nofun 0#2
  · by_cases m : s.M = 768#10
    · rw [State.seqStep_end ph m]
      cases next : s.nextPass with
      | none => rw [State.endPass_none next]; nofun
      | some p => rw [State.endPass_some next]; exact State.enterPass_not_stream (by simp [ph]) p
    · simp [State.seqStep_round ph m, ph]
  · rw [State.seqStep_wiping ph]; nofun

/-! ### Engines that the host cannot tell apart -/

theorem State.not_spent_of_valid {s : State} (valid : s.V = true) : ¬ s.Spent := by simp [State.Spent, valid]

theorem State.not_spent_of_stream {s : State} (ph : s.PH = .stream) : ¬ s.Spent := by simp [State.Spent, ph]

theorem State.not_spent_of_busy {s : State} (busy : s.busy = true) : ¬ s.Spent := fun ⟨ph, _⟩ => by
  simp [State.busy_of_idle ph] at busy

/-- The epoch and `N` are hidden while no call is open (R21; log 1). -/
theorem indistinguishable_withEpoch {t : State} (noCall : t.PH ≠ .stream) (e : Nat) (n : Byte) :
    Indistinguishable t { t with pEpoch := e, N := n } :=
  ⟨⟨rfl, rfl, rfl, rfl, rfl, rfl⟩, rfl, rfl, rfl, rfl, fun ph => absurd ph noCall, fun _ => ⟨rfl, rfl, rfl, rfl, rfl, rfl⟩,
    fun _ => ⟨rfl, rfl⟩⟩

/-- The epoch and the sequencer's registers are hidden while no operation runs (R30; log 1). -/
theorem indistinguishable_withSequencer {t : State} (idle : t.busy = false) (e : Nat) (m : BitVec 10) (j : BitVec 6)
    (p : BitVec 2) (kl il : Byte) (x : Bool) :
    Indistinguishable t { t with pEpoch := e, M := m, J := j, PASS := p, KL := kl, IL := il, X := x } :=
  ⟨⟨rfl, rfl, rfl, rfl, rfl, rfl⟩, rfl, rfl, rfl, rfl, fun _ => rfl, fun busy => by simp [idle] at busy, fun _ => ⟨rfl, rfl⟩⟩

section
variable {s u : State} (h : Indistinguishable s u)
include h

theorem Indistinguishable.PH_eq : u.PH = s.PH := by
  obtain ⟨⟨ph, -⟩, -⟩ := h
  exact ph

theorem Indistinguishable.V_eq : u.V = s.V := by
  obtain ⟨⟨-, v, -⟩, -⟩ := h
  exact v

theorem Indistinguishable.outQ_eq : u.outQ = s.outQ := by
  obtain ⟨-, -, -, outQ, -⟩ := h
  exact outQ

theorem Indistinguishable.busy_eq : u.busy = s.busy := State.busy_congr h.PH_eq

theorem Indistinguishable.dinReady_eq : u.dinReady = s.dinReady := by
  rw [State.dinReady, State.strm, h.PH_eq]
  rfl

theorem Indistinguishable.cmdReady_eq : u.cmdReady = s.cmdReady := by
  rw [State.cmdReady, h.busy_eq, h.outQ_eq]
  rfl

theorem Indistinguishable.nextOffer_eq : u.nextOffer = s.nextOffer := by
  have ready := h.dinReady_eq
  obtain ⟨-, -, host, -⟩ := h
  rw [State.nextOffer, ready, host]
  rfl

/-- Nothing of what may differ is at a port (R38). -/
theorem Indistinguishable.visible_eq : s.visible = u.visible := by
  have busy := h.busy_eq
  have cmdReady := h.cmdReady_eq
  have dinReady := h.dinReady_eq
  obtain ⟨⟨ph, v, err, len, ill, -⟩, -, -, outQ, dout, -⟩ := h
  simp only [State.visible, State.status, State.strm, busy, cmdReady, dinReady, ph, v, err, len, ill, outQ, dout]

/-- In an open call two such engines differ in the epoch and the sequencer's registers only. -/
theorem Indistinguishable.eq_of_streaming (streaming : s.PH = .stream) :
    u = { s with pEpoch := u.pEpoch, M := u.M, J := u.J, PASS := u.PASS, KL := u.KL, IL := u.IL, X := u.X } := by
  obtain ⟨⟨ph, v, err, len, ill, seen⟩, mat, host, outQ, dout, n, -, cipher⟩ := h
  obtain ⟨P, S⟩ := cipher (State.not_spent_of_stream streaming)
  rw [State.mk.injEq]
  exact ⟨P, rfl, S, n streaming, rfl, rfl, rfl, rfl, rfl, rfl, ph, v, err, len, ill, mat, host, outQ, dout, seen⟩

/-- While an operation runs they differ in the epoch and `N` only. -/
theorem Indistinguishable.eq_of_busy (busy : s.busy = true) : u = { s with pEpoch := u.pEpoch, N := u.N } := by
  obtain ⟨⟨ph, v, err, len, ill, seen⟩, mat, host, outQ, dout, -, sequencer, cipher⟩ := h
  obtain ⟨m, j, pass, kl, il, x⟩ := sequencer busy
  obtain ⟨P, S⟩ := cipher (State.not_spent_of_busy busy)
  rw [State.mk.injEq]
  exact ⟨P, rfl, S, rfl, m, j, pass, kl, il, x, ph, v, err, len, ill, mat, host, outQ, dout, seen⟩

/-! ### Each update keeps engines indistinguishable -/

theorem Indistinguishable.withHost (rest : List HostEvent) : Indistinguishable (s.withHost rest) (u.withHost rest) := by
  obtain ⟨flags, mat, -, outQ, dout, n, sequencer, cipher⟩ := h
  exact ⟨flags, mat, rfl, outQ, dout, n, sequencer, cipher⟩

theorem Indistinguishable.setMat (a : MatAddr) (v : Byte) : Indistinguishable (s.setMat a v) (u.setMat a v) := by
  obtain ⟨flags, mat, host, outQ, dout, n, sequencer, cipher⟩ := h
  exact ⟨flags, congrArg (Memory.write · a.toNat v) mat, host, outQ, dout, n, sequencer, cipher⟩

theorem Indistinguishable.deliver : Indistinguishable s.deliver u.deliver := by
  have same := h.outQ_eq
  cases outstanding : s.outQ with
  | nil => rwa [State.deliver_nil outstanding, State.deliver_nil (same.trans outstanding)]
  | cons q qs =>
    obtain ⟨flags, mat, host, outQ, dout, n, sequencer, cipher⟩ := h
    rw [State.deliver_cons outstanding, State.deliver_cons (same.trans outstanding)]
    exact ⟨flags, mat, host, rfl, congrArg (· ++ [q]) dout, n, sequencer, cipher⟩

/-- `rst` leaves a spent engine, whatever was there (R200, R201). -/
theorem Indistinguishable.hostReset : Indistinguishable s.hostReset u.hostReset := by
  obtain ⟨⟨-, -, -, -, -, seen⟩, mat, host, -, dout, -⟩ := h
  exact ⟨⟨rfl, rfl, rfl, rfl, rfl, seen⟩, mat, host, rfl, dout, nofun, nofun, fun notSpent => absurd ⟨rfl, rfl⟩ notSpent⟩

/-- A wipe leaves a spent engine too (R160). -/
theorem Indistinguishable.wipe : Indistinguishable s.acceptWipe.zeroize u.acceptWipe.zeroize := by
  obtain ⟨⟨-, -, -, -, -, seen⟩, mat, host, outQ, dout, -⟩ := h
  exact ⟨⟨rfl, rfl, rfl, rfl, rfl, seen⟩, mat, host, outQ, dout, nofun, nofun, fun notSpent => absurd ⟨rfl, rfl⟩ notSpent⟩

/-- Only a valid engine has a cipher state behind a refused word, and such an engine had it before (R173). -/
theorem Indistinguishable.refuseWord : Indistinguishable s.refuseWord u.refuseWord := by
  obtain ⟨⟨-, v, err, len, -, -⟩, mat, host, outQ, dout, -, -, cipher⟩ := h
  exact ⟨⟨rfl, v, err, len, rfl, rfl⟩, mat, host, outQ, dout, nofun, nofun,
    fun notSpent => cipher fun spent => notSpent ⟨rfl, spent.2⟩⟩

/-- `XFORM` opens a call on valid engines, which agree in `P` and `S`, and makes `N` equal (R140); else it is refused. -/
theorem Indistinguishable.openCall : Indistinguishable s.openCall u.openCall := by
  cases valid : s.V with
  | false =>
    rw [State.openCall_invalid valid, State.openCall_invalid (h.V_eq.trans valid)]
    exact h.refuseWord
  | true =>
    obtain ⟨⟨-, v, err, len, -, seen⟩, mat, host, outQ, dout, -, -, cipher⟩ := h
    rw [State.openCall_valid valid, State.openCall_valid (v.trans valid)]
    exact ⟨⟨rfl, v, err, len, rfl, seen⟩, mat, host, outQ, dout, fun _ => rfl, nofun,
      fun _ => cipher (State.not_spent_of_valid valid)⟩

/-- A data beat of an open call computes from what the engines agree in, for every entry of `P` is written (R142). -/
theorem Indistinguishable.ksStep (sound : s.Inv) (streaming : s.PH = .stream) (d : Byte) :
    Indistinguishable (s.ksStep d) (u.ksStep d) := by
  obtain ⟨valid, -⟩ := sound.flags.streamValid streaming
  have beat := State.ksStep_withEpoch (sound.written valid) d u.pEpoch u.M u.J u.PASS u.KL u.IL u.X
  rw [← h.eq_of_streaming streaming] at beat
  rw [beat]
  exact indistinguishable_withSequencer (t := s.ksStep d) (State.busy_of_stream streaming) _ _ _ _ _ _ _

/-- An initialization overwrites everything that may differ but the epoch and `N`, which it does not read (R114, R115). -/
theorem Indistinguishable.initCommand (sound : s.Inv) (sound' : u.Inv) (x : Bool) (klen ivlen : Byte) :
    Indistinguishable (s.initCommand x klen ivlen) (u.initCommand x klen ivlen) := by
  obtain ⟨⟨-, -, -, -, -, seen⟩, mat, host, outQ, dout, -⟩ := h
  rw [State.initCommand_withEpoch
    (State.filled_forgets sound.memory.1 sound'.memory.1 mat host outQ dout seen x klen ivlen)]
  exact indistinguishable_withEpoch (by rw [State.initCommand_PH]; nofun) _ _

theorem Indistinguishable.seqStep (sound : s.Inv) (busy : s.busy = true) : Indistinguishable s.seqStep u.seqStep := by
  obtain ⟨n, position⟩ := sound.seqStep_withEpoch busy u.pEpoch u.N
  rw [h.eq_of_busy busy, position]
  exact indistinguishable_withEpoch (State.seqStep_not_stream busy) _ _

end

/-- Whatever one engine's step does, the other's does the same, on the same offer, and the two stay indistinguishable. -/
theorem StepCase.simulated {s t u : State} (c : StepCase s t) (sound : s.Inv) (sound' : u.Inv) (h : Indistinguishable s u) :
    ∃ v, StepCase u v ∧ Indistinguishable t v := by
  have busy := h.busy_eq
  have cmdReady := h.cmdReady_eq
  have nextOffer := h.nextOffer_eq
  cases c with
  | reset offer => exact ⟨_, .reset (nextOffer.trans offer), (h.withHost _).hostReset⟩
  | running running noReset =>
    exact ⟨_, .running (busy.trans running) (nextOffer ▸ noReset), h.seqStep sound running⟩
  | waiting idle offer => exact ⟨_, .waiting (busy.trans idle) (nextOffer.trans offer), h.deliver⟩
  | blocked idle offer ready =>
    exact ⟨_, .blocked (busy.trans idle) (nextOffer.trans offer) (cmdReady.trans ready), h.deliver⟩
  | take idle offer => exact ⟨_, .take (busy.trans idle) (nextOffer.trans offer), (h.withHost _).deliver⟩
  | mat idle offer => exact ⟨_, .mat (busy.trans idle) (nextOffer.trans offer), (h.withHost _).setMat _ _⟩
  | @data d rest streaming offer =>
    exact ⟨_, .data (h.PH_eq.trans streaming) (nextOffer.trans offer),
      (h.withHost rest).ksStep (sound.withHost rest) streaming d⟩
  | init offer ready dec =>
    exact ⟨_, .init (nextOffer.trans offer) (cmdReady.trans ready) dec,
      (h.withHost _).initCommand (sound.withHost _) (sound'.withHost _) _ _ _⟩
  | init3 offer ready dec =>
    exact ⟨_, .init3 (nextOffer.trans offer) (cmdReady.trans ready) dec,
      (h.withHost _).initCommand (sound.withHost _) (sound'.withHost _) _ _ _⟩
  | xform offer ready dec =>
    exact ⟨_, .xform (nextOffer.trans offer) (cmdReady.trans ready) dec, (h.withHost _).openCall⟩
  | wipe offer ready dec =>
    exact ⟨_, .wipe (nextOffer.trans offer) (cmdReady.trans ready) dec, (h.withHost _).wipe⟩
  | refused offer ready dec =>
    exact ⟨_, .refused (nextOffer.trans offer) (cmdReady.trans ready) dec, (h.withHost _).refuseWord⟩

/-- Settles O56: the ports show only what the engines agree in, and each case of a step is simulated. -/
theorem leftoversNeverReachAPort : Obligations.LeftoversNeverReachAPort := by
  refine fun s u sound sound' h => ⟨h.visible_eq, fun t hstep => ?_⟩
  obtain ⟨v, c, same⟩ := (step_inv hstep).simulated sound sound' h
  exact ⟨v, c.step, same⟩

/-! ### Every step answers -/

/-- Every arm of `exec` answers a next state: E1 and E2 are flags of it (R171 to R173). -/
theorem exec_answers (i : Instr) (s : State) : ∃ t, exec i s = .next t := by
  cases i with
  | init | init3 | xform | wipe | data => exact ⟨_, rfl⟩

theorem acceptWord_answers (w : CommandWord) (s : State) : ∃ t, acceptWord w s = .next t := by
  rw [acceptWord]
  cases decodeCommand w with
  | ok i => exact exec_answers i s
  | error r => exact ⟨_, rfl⟩

theorem takeOffer_answers (e : HostEvent) (rest : List HostEvent) (s : State) : ∃ t, takeOffer e rest s = .next t := by
  cases e with
  | cmd w =>
    rw [takeOffer]
    split_ifs
    · exact acceptWord_answers w _
    · exact ⟨_, rfl⟩
  | data d => exact exec_answers (.data d) _
  | take | mat | rst => exact ⟨_, rfl⟩

/-- Settles O15: with no offer, with `rst`, and with an operation running the answer is written out; else the offer is taken. -/
theorem everyStepAnswers : Obligations.EveryStepAnswers := by
  intro s
  unfold step
  split
  · exact ⟨_, rfl⟩
  · split_ifs
    · exact ⟨_, rfl⟩
    · exact takeOffer_answers _ _ s
  · split_ifs <;> exact ⟨_, rfl⟩

/-! ### A rejected length (R171, R172, R174) -/

/-- After a bad key length: the fill is done, and the raise follows with no round run. -/
theorem State.initCommand_badKey {klen : Byte} (bad : klen.toNat < 16 ∨ 64 < klen.toNat) (ivlen : Byte) (s : State) (x : Bool) :
    let t := s.initCommand x klen ivlen
    t.V = false ∧ t.ERR = true ∧ t.ERRLEN = klen ∧ t.ILL = false ∧ t.PH = .idle ∧ t.M = 0#10 ∧ t.J = 0#6 ∧ t.PASS = 0#2 ∧
      t.KL = klen ∧ t.IL = ivlen ∧ t.X = x ∧ t.N = s.N ∧ t.outQ = s.outQ ∧ t.illSeen = s.illSeen ∧ SameEnvironment s t := by
  intro t
  have raised : t = (s.filled x klen ivlen).raiseInvalidSize klen := by
    rw [← lengthOk_eq_false_iff] at bad
    exact (s.initCommand_eq x klen ivlen).trans (if_pos bad)
  rw [raised]
  simp [SameEnvironment]

/-- Settles O28, for each variant by what a bad key length leaves. -/
theorem badKeyLengthRaises : Obligations.BadKeyLengthRaises := fun s klen ivlen ready bad =>
  ⟨⟨_, exec_init ready klen ivlen, State.initCommand_badKey bad ivlen s false⟩,
    _, exec_init3 ready klen ivlen, State.initCommand_badKey bad ivlen s true⟩

/-- After a bad IV length behind an admitted key: the key pass ran whole, and the raise follows in pass 1. -/
theorem State.initCommand_badIv {klen ivlen : Byte} (key : AdmittedKey klen) (notZero : ivlen ≠ 0x00#8)
    (bad : ivlen.toNat < 16 ∨ 64 < ivlen.toNat) (s : State) (x : Bool) :
    let t := s.initCommand x klen ivlen
    t.V = false ∧ t.ERR = true ∧ t.ERRLEN = ivlen ∧ t.ILL = false ∧ t.PH = .idle ∧ t.M = 768#10 ∧
      t.J.toNat = 768 % klen.toNat ∧ t.PASS = 1#2 ∧ t.KL = klen ∧ t.IL = ivlen ∧ t.X = x ∧ t.N = s.N ∧ t.outQ = s.outQ ∧
      t.illSeen = s.illSeen ∧ SameEnvironment s t := by
  intro t
  rw [admittedKey_iff] at key
  have raised : t = ({ s.keyed x klen ivlen with PASS := 1#2 } : State).raiseInvalidSize ivlen := by
    rw [← lengthOk_eq_false_iff] at bad
    exact (s.initCommand_eq x klen ivlen).trans
      ((if_neg (by simp [key])).trans ((if_neg notZero).trans (if_pos bad)))
  rw [raised]
  simp [SameEnvironment, s.keyed_J x ivlen key]

/-- Settles O29, for each variant by what a bad IV length leaves. -/
theorem badIvLengthRaises : Obligations.BadIvLengthRaises := fun s klen ivlen ready key notZero bad =>
  ⟨⟨_, exec_init ready klen ivlen, State.initCommand_badIv key notZero bad s false⟩,
    _, exec_init3 ready klen ivlen, State.initCommand_badIv key notZero bad s true⟩

/-! ### A refused command word (R173) -/

/-- Settles O39: both causes end in the refusal; and `ILL` is written by `rst` and by accepted command words only. -/
theorem illegalChangesOneFlag : Obligations.IllegalChangesOneFlag := by
  refine ⟨fun s ready invalid => ?_, fun s w rest r offer ready dec => ⟨_, (StepCase.refused offer ready dec).step, rfl⟩,
    fun s t h before after => ?_⟩
  · rw [exec_xform ready, State.openCall_invalid invalid]
    exact ⟨_, rfl, rfl⟩
  · obtain ⟨-, -, keeps⟩ := illDescribesTheLastCommandWord
    by_contra neither
    obtain ⟨notAccepted, noReset⟩ := not_or.mp neither
    have same := keeps s t h (fun rest offer => noReset ⟨rest, offer⟩)
      fun w rest offer => Bool.eq_false_iff.mpr fun ready => notAccepted ⟨w, rest, offer, ready⟩
    rw [before, after] at same
    cases same

theorem State.seqStep_illSeen (s : State) : s.seqStep.illSeen = s.illSeen := by
  obtain ⟨-, -, -, -, -, seen, -⟩ := s.seqStep_frame
  exact seen

theorem State.initCommand_illSeen (s : State) (x : Bool) (klen ivlen : Byte) :
    (s.initCommand x klen ivlen).illSeen = s.illSeen := by
  obtain ⟨-, -, seen, -⟩ := s.initCommand_frame x klen ivlen
  exact seen

@[simp] theorem State.refuseWord_illSeen (s : State) : s.refuseWord.illSeen = true := (rfl)

/-- `XFORM` sets the mark exactly when it is refused (R140, R173; log 8). -/
theorem State.openCall_illSeen (s : State) : s.openCall.illSeen = (s.illSeen || !s.V) := by
  cases v : s.V with
  | true => simp [State.openCall_valid v]
  | false => simp [State.openCall_invalid v]

/-- Settles O53: an accepted word by what it decodes to; every other case of a step leaves the mark and accepts no word. -/
theorem stickyMarkRecordsEveryRefusal : Obligations.StickyMarkRecordsEveryRefusal := by
  intro s t h
  cases step_inv h with
  | reset offer => simp [offer]
  | running busy => simp [State.seqStep_illSeen, State.cmdReady, busy]
  | waiting _ offer => simp [offer]
  | blocked _ offer notReady => simp [notReady]
  | take _ offer => simp [offer]
  | mat _ offer => simp [offer]
  | data _ offer => simp [offer]
  | init offer ready dec => simp [State.initCommand_illSeen, offer, dec]
  | init3 offer ready dec => simp [State.initCommand_illSeen, offer, dec]
  | xform offer ready dec => simp [State.openCall_illSeen, offer, ready, dec]
  | wipe offer ready dec => simp [offer, dec]
  | refused offer ready dec => simp [offer, ready, dec]

/-! ### The lifecycle (R180) -/

theorem State.lifecycle_eq_invalid_iff (s : State) : s.lifecycle = .invalid ↔ s.V = false := by
  unfold State.lifecycle
  split_ifs <;> simp [*]

theorem State.lifecycle_eq_ready_iff (s : State) : s.lifecycle = .ready ↔ s.V = true ∧ s.PH ≠ .stream := by
  rw [ne_eq, ← s.dinReady_iff, State.dinReady]
  unfold State.lifecycle
  split_ifs <;> simp [*]

theorem State.lifecycle_eq_streaming_iff (s : State) : s.lifecycle = .streaming ↔ s.V = true ∧ s.PH = .stream := by
  rw [← s.dinReady_iff, State.dinReady]
  unfold State.lifecycle
  split_ifs <;> simp [*]

theorem State.lifecycle_of_idle {s : State} (ph : s.PH = .idle) : s.lifecycle = if s.V then .ready else .invalid := by
  simp [State.lifecycle, State.strm, ph]

/-- A sound engine with no operation running is in one of the three conditions, with `PH` and `P` as R180 says. -/
theorem State.Inv.lifecycle_conditions {s : State} (sound : s.Inv) (idle : s.busy = false) :
    (s.lifecycle = .invalid → s.V = false ∧ s.PH = .idle) ∧
    (s.lifecycle = .ready → s.V = true ∧ s.PH = .idle ∧ s.IsPermutation) ∧
    (s.lifecycle = .streaming → s.V = true ∧ s.PH = .stream ∧ s.IsPermutation) := by
  rw [s.lifecycle_eq_invalid_iff, s.lifecycle_eq_ready_iff, s.lifecycle_eq_streaming_iff]
  refine ⟨fun invalid => ⟨invalid, (State.idle_or_stream idle).resolve_right fun ph => ?_⟩,
    fun ⟨valid, notOpen⟩ => ⟨valid, (State.idle_or_stream idle).resolve_right notOpen, sound.flags.validPermutation valid⟩,
    fun ⟨valid, ph⟩ => ⟨valid, ph, sound.flags.validPermutation valid⟩⟩
  obtain ⟨valid, -⟩ := sound.flags.streamValid ph
  rw [invalid] at valid
  cases valid

theorem State.lifecycle_initCommand_admitted {klen ivlen : Byte} (key : AdmittedKey klen) (iv : AdmittedIv ivlen) (s : State)
    (x : Bool) : (s.initCommand x klen ivlen).lifecycle = .ready := by
  rw [State.lifecycle_of_idle (s.initCommand_PH x klen ivlen), (s.initCommand_V_iff x klen ivlen).mpr ⟨key, iv⟩]
  rfl

theorem State.lifecycle_initCommand_rejected {klen ivlen : Byte} (bad : ¬ (AdmittedKey klen ∧ AdmittedIv ivlen)) (s : State)
    (x : Bool) : (s.initCommand x klen ivlen).lifecycle = .invalid := by
  rw [State.lifecycle_eq_invalid_iff, ← Bool.not_eq_true, s.initCommand_V_iff]
  exact bad

theorem State.lifecycle_refuseWord (s : State) :
    s.refuseWord.lifecycle = if s.lifecycle = .invalid then .invalid else .ready := by
  rw [State.lifecycle_of_idle (s := s.refuseWord) rfl, s.refuseWord_V]
  simp only [s.lifecycle_eq_invalid_iff]
  cases s.V <;> rfl

theorem State.isPermutation_initCommand {klen ivlen : Byte} (key : AdmittedKey klen) (iv : AdmittedIv ivlen) (s : State)
    (x : Bool) : (s.initCommand x klen ivlen).IsPermutation := by
  rw [State.initCommand_admitted key iv]
  exact State.isPermutation_completeInit (s.isPermutation_allPasses x klen ivlen)

/-- `XFORM` in the table of R180: refused from INVALID, and it opens a call from READY and from STREAMING. -/
theorem State.Inv.lifecycle_openCall {s : State} (sound : s.Inv) :
    (s.lifecycle = .invalid → s.openCall.lifecycle = .invalid ∧ s.openCall.PH = .idle ∧ s.openCall.ILL = true) ∧
    (s.lifecycle ≠ .invalid → s.openCall.lifecycle = .streaming ∧ s.openCall.PH = .stream ∧ s.openCall.N = 0x00#8 ∧
      s.openCall.IsPermutation ∧ s.openCall.ILL = false) := by
  rw [ne_eq, s.lifecycle_eq_invalid_iff, Bool.not_eq_false]
  refine ⟨fun invalid => ?_, fun valid => ?_⟩
  · rw [State.openCall_invalid invalid]
    exact ⟨(State.lifecycle_eq_invalid_iff _).mpr invalid, rfl, rfl⟩
  · have opened := s.openCall_V.trans valid
    have ph := State.openCall_streaming valid
    exact ⟨(State.lifecycle_eq_streaming_iff _).mpr ⟨opened, ph⟩, ph, State.openCall_N valid,
      sound.openCall.flags.validPermutation opened, by rw [s.openCall_ILL, valid]; rfl⟩

/-- `DATA` in the table of R180: a step in STREAMING, and no beat anywhere else (R141). -/
theorem State.Inv.lifecycle_data {s : State} (sound : s.Inv) (d : Byte) :
    ∃ t, exec (.data d) s = .next t ∧ t.ILL = s.ILL ∧
      (s.lifecycle = .streaming → t.lifecycle = .streaming ∧ t.PH = .stream ∧ t.N = s.N + 1#8 ∧ t.IsPermutation) ∧
      (s.lifecycle ≠ .streaming → t = s) := by
  by_cases ph : s.PH = .stream
  · obtain ⟨valid, -⟩ := sound.flags.streamValid ph
    have streaming := s.lifecycle_eq_streaming_iff.mpr ⟨valid, ph⟩
    exact ⟨_, exec_data_streaming ph d, rfl,
      fun _ => ⟨(State.lifecycle_eq_streaming_iff _).mpr ⟨valid, ph⟩, ph, rfl,
        State.isPermutation_ksStep (sound.flags.validPermutation valid) d⟩,
      fun notStreaming => absurd streaming notStreaming⟩
  · have notStreaming : s.lifecycle ≠ .streaming := fun streaming => by
      obtain ⟨-, inCall⟩ := s.lifecycle_eq_streaming_iff.mp streaming
      exact ph inCall
    exact ⟨s, exec_data_outside ph d, rfl, fun streaming => absurd streaming notStreaming, fun _ => rfl⟩

/-- Settles O52: the three conditions, and the table row by row. -/
theorem lifecycleTransitions : Obligations.LifecycleTransitions := by
  intro s sound ready
  obtain ⟨idle, -⟩ := s.cmdReady_iff.mp ready
  obtain ⟨invalid, readyCondition, streaming⟩ := sound.lifecycle_conditions idle
  refine ⟨invalid, readyCondition, streaming, fun klen ivlen => ?_, ⟨_, exec_xform ready, sound.lifecycle_openCall⟩,
    sound.lifecycle_data, ⟨_, exec_wipe ready, rfl, rfl, rfl⟩, ⟨rfl, rfl, s.lifecycle_refuseWord⟩, rfl, rfl, rfl⟩
  exact ⟨_, _, exec_init ready klen ivlen, exec_init3 ready klen ivlen, s.initCommand_PH _ _ _, s.initCommand_PH _ _ _,
    s.initCommand_ILL _ _ _, s.initCommand_ILL _ _ _,
    fun ⟨key, iv⟩ => ⟨State.lifecycle_initCommand_admitted key iv s _, State.lifecycle_initCommand_admitted key iv s _,
      State.isPermutation_initCommand key iv s _, State.isPermutation_initCommand key iv s _⟩,
    fun bad => ⟨State.lifecycle_initCommand_rejected bad s _, (s.initCommand_ERR_iff _ _ _).mpr bad,
      State.lifecycle_initCommand_rejected bad s _, (s.initCommand_ERR_iff _ _ _).mpr bad⟩⟩

end Sys2Proof.Machine

/-! PROOFS. The statements of 70_reset_and_hazards.md: reset (R200 to R202), the host's duty on lengths (R214), and that
every operation ends (R216). -/

namespace Sys2Proof.Machine

/-! ### Lengths that do not fit a field -/

theorem lengthField_fits {len : Nat} (fits : len ≤ 255) : lengthField len = .ok (BitVec.ofNat 8 len) := if_pos fits

theorem lengthField_exceeds {len : Nat} (exceeds : 255 < len) : lengthField len = .error len :=
  if_neg (Nat.not_le_of_gt exceeds)

section
variable (form : Byte → Byte → Instr) {klen ivlen : Nat}

theorem assembleL2_key_exceeds (key : 255 < klen) : assembleL2 form klen ivlen = .error klen := by
  rw [assembleL2, lengthField_exceeds key]

theorem assembleL2_iv_exceeds (key : klen ≤ 255) (iv : 255 < ivlen) : assembleL2 form klen ivlen = .error ivlen := by
  rw [assembleL2, lengthField_fits key, lengthField_exceeds iv]

theorem assembleL2_fits (key : klen ≤ 255) (iv : ivlen ≤ 255) :
    assembleL2 form klen ivlen = .ok [offerOf (form (BitVec.ofNat 8 klen) (BitVec.ofNat 8 ivlen))] := by
  rw [assembleL2, lengthField_fits key, lengthField_fits iv]

end

/-- Settles O6: the field test on the key length, then on the IV length; the word of two lengths that fit decodes to them by
`decode_encode`. -/
theorem lengthsAbove255AreReported : Obligations.LengthsAbove255AreReported := by
  refine fun klen ivlen => ⟨fun key => ?_, fun key iv => ?_, fun key iv => ?_⟩
  · exact ⟨assembleL2_key_exceeds .init key, assembleL2_key_exceeds .init3 key⟩
  · exact ⟨assembleL2_iv_exceeds .init key iv, assembleL2_iv_exceeds .init3 key iv⟩
  · exact ⟨_, _, BitVec.ofNat 8 klen, BitVec.ofNat 8 ivlen, Nat.mod_eq_of_lt (Nat.lt_succ_of_le key),
      Nat.mod_eq_of_lt (Nat.lt_succ_of_le iv), assembleL2_fits .init key iv, decode_encode (.init _ _),
      assembleL2_fits .init3 key iv, decode_encode (.init3 _ _)⟩

/-! ### What `rst` leaves -/

/-- `STATUS` after `rst` (R200): every one of its fields is 0. -/
theorem State.status_hostReset (s : State) : s.hostReset.status = 0x0000#16 := by
  simp only [State.status, State.strm, State.busy, State.hostReset_ERRLEN, State.hostReset_PH, State.hostReset_ILL,
    State.hostReset_ERR, State.hostReset_V]
  decide

/-- Settles O8: `rst` is a case of the step in every phase, and each register of its result is a constant. -/
theorem rstResetsWhateverWasRunning : Obligations.RstResetsWhateverWasRunning := fun _ _ offer =>
  ⟨_, (StepCase.reset offer).step, rfl, rfl, rfl, rfl, rfl, rfl, rfl, rfl, rfl, rfl, rfl, rfl, rfl,
    State.status_hostReset _, rfl, rfl, rfl, rfl, rfl⟩

/-- Settles O9: the host's side is copied; no entry of `P` is listed, so each reads as the free byte of the next epoch. -/
theorem rstLeavesTheHostsSide : Obligations.RstLeavesTheHostsSide := fun _ _ offer =>
  ⟨_, (StepCase.reset offer).step, rfl, rfl, rfl, rfl, fun _ => rfl⟩

/-- `rst` keeps only the epoch and the host's side, and a position of a running operation changes neither (R202). -/
theorem State.hostReset_seqStep (s : State) : s.seqStep.hostReset = s.hostReset := by
  obtain ⟨host, -, dout, mat, -, seen, epoch⟩ := s.seqStep_frame
  rw [State.hostReset, host, dout, mat, seen, epoch, State.hostReset]

theorem State.hostReset_seqRun (k : Nat) (s : State) : (State.seqRun k s).hostReset = s.hostReset :=
  State.seqRun_induct (fun t => t.hostReset = s.hostReset) (fun t same => t.hostReset_seqStep.trans same) k rfl

/-- Settles O37: the acceptance changes nothing that `rst` keeps, and neither do the positions after it. -/
theorem resetAbandonsAnOperation : Obligations.ResetAbandonsAnOperation := fun s k =>
  ⟨fun x klen ivlen => State.hostReset_seqRun k (s.acceptInit x klen ivlen), State.hostReset_seqRun k s.acceptWipe⟩

/-! ### Every operation ends -/

/-- The passes run in rising order (R118). -/
theorem State.lt_nextPass {s : State} (pass : s.PASS ≠ 3#2) {p : BitVec 2} (h : s.nextPass = some p) :
    s.PASS.toNat < p.toNat := by
  unfold State.nextPass at h
  split_ifs at h with iv again <;> cases h
  · obtain ⟨first, -⟩ := iv
    rw [first]
    decide
  · obtain ⟨notLast, -⟩ := again
    bv_omega

/-- Entering a pass ends the operation, by the raise, or leaves it at the start of that pass (R112, R113). -/
theorem State.enterPass_cases {s : State} (ph : s.PH = .ksa) {p : BitVec 2} (pass : p ≠ 3#2) :
    (s.enterPass p).busy = false ∨ (s.enterPass p).PH = .ksa ∧ (s.enterPass p).CountersOk ∧ (s.enterPass p).PASS = p := by
  cases ok : lengthOk (s.passLength p) with
  | true =>
    rw [State.enterPass_ok ok]
    exact .inr ⟨ph, ⟨Nat.zero_le _, pass⟩, rfl⟩
  | false =>
    rw [State.enterPass_bad ok]
    exact .inl (State.busy_of_idle rfl)

/-- The end of a pass is the end of the operation, or the start of a later pass. -/
theorem State.endPass_cases {s : State} (ph : s.PH = .ksa) (pass : s.PASS ≠ 3#2) :
    s.endPass.busy = false ∨ s.endPass.PH = .ksa ∧ s.endPass.CountersOk ∧ s.PASS.toNat < s.endPass.PASS.toNat := by
  cases next : s.nextPass with
  | none =>
    rw [State.endPass_none next]
    exact .inl (State.busy_of_idle rfl)
  | some p =>
    rw [State.endPass_some next]
    refine (State.enterPass_cases ph (State.nextPass_ne next)).imp_right fun ⟨running, inRange, entered⟩ =>
      ⟨running, inRange, ?_⟩
    rw [entered]
    exact State.lt_nextPass pass next

theorem State.seqRun_one {s : State} (busy : s.busy = true) : State.seqRun 1 s = s.seqStep := State.seqRun_busy busy 0

/-- An operation that has ended within `j` positions has ended within any larger number. -/
theorem State.busy_seqRun_mono {j k : Nat} {s : State} (le : j ≤ k) (ended : (State.seqRun j s).busy = false) :
    (State.seqRun k s).busy = false := by
  rwa [State.seqRun_of_idle le ended]

/-- From inside a pass its end comes within 769 positions, and with it the end of the operation or a later pass. -/
theorem State.exists_seqRun_passEnd {s : State} (ph : s.PH = .ksa) (counters : s.CountersOk) :
    ∃ j ≤ 769, (State.seqRun j s).busy = false ∨ (State.seqRun j s).PH = .ksa ∧ (State.seqRun j s).CountersOk ∧
      s.PASS.toNat < (State.seqRun j s).PASS.toNat := by
  obtain ⟨m, pass⟩ := counters
  rw [rounds_eq] at m
  refine ⟨768 - s.M.toNat + 1, by omega, ?_⟩
  rw [State.seqRun_rest ph m, State.ksaRounds_frame]
  exact State.endPass_cases ph pass

/-- With at most `n` passes after the running one, the operation ends within `n + 1` passes of 768 rounds and an end. -/
theorem State.busy_seqRun_passes (n : Nat) {s : State} (ph : s.PH = .ksa) (counters : s.CountersOk)
    (left : 2 ≤ s.PASS.toNat + n) : (State.seqRun ((n + 1) * 769) s).busy = false := by
  induction n generalizing s with
  | zero =>
    obtain ⟨j, le, ended | ⟨-, ⟨-, pass⟩, later⟩⟩ := State.exists_seqRun_passEnd ph counters
    · exact State.busy_seqRun_mono (by omega) ended
    · bv_omega
  | succ n ih =>
    obtain ⟨j, le, ended | ⟨running, inRange, later⟩⟩ := State.exists_seqRun_passEnd ph counters
    · exact State.busy_seqRun_mono (by omega) ended
    · refine State.busy_seqRun_mono (j := j + (n + 1) * 769) (by omega) ?_
      rw [State.seqRun_add]
      exact ih running inRange (by omega)

/-- Settles O36: a wipe is one position; the fill is one position before the first of at most three passes. -/
theorem everyOperationEnds : Obligations.EveryOperationEnds := by
  intro s counters
  have bound : seqBound = 1 + (2 + 1) * 769 := seqBound_eq
  rw [bound]
  cases ph : s.PH with
  | idle => exact State.busy_seqRun_mono (Nat.zero_le _) (State.busy_of_idle ph)
  | stream => exact State.busy_seqRun_mono (Nat.zero_le _) (State.busy_of_stream ph)
  | wiping =>
    have wiped : State.seqRun 1 s = s.zeroize := by
      rw [State.seqRun_one (State.busy_of_wiping ph), State.seqStep_wiping ph]
    rw [State.seqRun_add, wiped, State.seqRun_idle rfl]
    rfl
  | fill =>
    have filled : State.seqRun 1 s = ({ s.identityFill with PH := .ksa } : State).enterPass 0#2 := by
      rw [State.seqRun_one (State.busy_of_fill ph), State.seqStep_fill ph]
    rw [State.seqRun_add, filled]
    obtain ended | ⟨running, inRange, -⟩ :=
      State.enterPass_cases (s := { s.identityFill with PH := .ksa }) (p := 0#2) rfl (by decide)
    · rwa [State.seqRun_idle ended]
    · exact State.busy_seqRun_passes 2 running inRange (by omega)
  | ksa => exact State.busy_seqRun_mono (by omega) (State.busy_seqRun_passes 2 ph counters (by omega))

end Sys2Proof.Machine
